-- ==== Sys2Proof/Word.lean ====
section
/-!
DEFINITION. The word of the block: every evaluated value is a two's complement signed integer of W = 32 bits
(00_scope R8, 41_evaluate R109).
-/
namespace Sys2Proof

/-- R8: `W`, the width in bits of every evaluated value. -/
abbrev W : Nat := 32

/-- A `W`-bit value: literal values, accumulators, RESULT. -/
abbrev Word := BitVec 32

/-- R9: `INT_MAX = 2^(W-1) - 1`. -/
def intMax : Int := 2147483647

/-- R9: `INT_MIN = -2^(W-1)`. -/
def intMin : Int := -2147483648

end Sys2Proof
end

