-- ==== Sys2Proof/Config.lean ====
section
/-!
DEFINITION. What an implementation fixes, and the free values (00_scope R8, 93_implementation_defined U20, U23).
-/
namespace Sys2Proof

/-- R8: `MAXBITS`, the capacity in bits of the input bit memory. The spec leaves it open (D10), so no proof can know it
(log entry 1). -/
opaque Config.maxBits : Nat

/-- R8: `AW = ceil(log2(MAXBITS + 1))`, the width of every bit-offset register. -/
def Config.aw : Nat := Nat.clog 2 (Config.maxBits + 1)

/-- R8: `NMAX = floor((MAXBITS + 4) / 7)`, the capacity of NODE, PSTK and ESTK. -/
def Config.nmax : Nat := (Config.maxBits + 4) / 7

/-- R33, U20: the bit that a cell of BITS holds when nothing has written it since reset: a free value, one for each reset
(first argument: how many resets there have been) and each offset. -/
opaque Config.unwrittenBit : Nat → Nat → Bool

end Sys2Proof
end

