-- ==== Sys2Proof/Syntax.lean ====
section
/-!
DEFINITION. The instructions: a packet header is the block's instruction, its 3-bit `type_id` the opcode
(30_encoding R60, R63). One constructor per row of spec/opcode_table.json.
-/
namespace Sys2Proof

/-- A decoded packet header (R63). An operator's operand is its `sub_packet_count` (R64: 0 to 15). A literal's groups are
not part of its header (R61: "The header is the type field alone"). They stay in the stream and are read by its GRP steps. -/
inductive Instr where
  /-- `000cccc` -/
  | sum (count : BitVec 4)
  /-- `001cccc` -/
  | product (count : BitVec 4)
  /-- `010cccc` -/
  | min (count : BitVec 4)
  /-- `011cccc` -/
  | max (count : BitVec 4)
  /-- `100` -/
  | lit
  /-- `101` -/
  | illegal5
  /-- `110` -/
  | illegal6
  /-- `111` -/
  | illegal7
  deriving DecidableEq, Repr

end Sys2Proof
end

