-- ==== Sys2Proof/Machine/Packet.lean ====
section
/-!
DEFINITION. The abstract data model: packet trees with their places in the stream (10_state R34), the tree notation
(30_encoding R70), and the failure kinds (60_exceptions R150).
-/
namespace Sys2Proof

/-- The four operators, `tid` 0 to 3 (30_encoding R63). -/
inductive Op where
  | sum | product | min | max
  deriving DecidableEq, Repr

/-- R63: the operator of a type field 0 to 3. -/
def Op.ofType : Nat → Op
  | 0 => .sum
  | 1 => .product
  | 2 => .min
  | _ => .max

/-- R71: `tid(op)`. -/
def Op.tid : Op → Nat
  | .sum => 0
  | .product => 1
  | .min => 2
  | .max => 3

/-- R150: the failure kinds. -/
inductive FailureKind where
  /-- raised by the host-side converter only, never by the engine (R152) -/
  | invalidInput
  | invalidPacketType
  | outOfBits
  | emptyOperator
  | literalOverflow
  deriving DecidableEq, Repr

/-- R9: what `raise Kind(pos)` carries. -/
structure Raise where
  kind : FailureKind
  pos : Nat
  deriving DecidableEq, Repr

/-- R34: a parsed packet and where it lies in the stream. -/
inductive Packet where
  | lit (value start size : Nat)
  | op (o : Op) (count : Nat) (children : List Packet) (start size : Nat)
  deriving Repr

/-- R34: the offset of the packet's first bit. -/
def Packet.start : Packet → Nat
  | .lit _ start _ => start
  | .op _ _ _ start _ => start

/-- R34: the packet's consumed bits. -/
def Packet.size : Packet → Nat
  | .lit _ _ size => size
  | .op _ _ _ _ size => size

/-- R70: the tree notation, `LIT.g value` and `op(children)`. -/
inductive Tree where
  | lit (groups value : Nat)
  | op (o : Op) (children : List Tree)
  deriving Repr

/-- R70: the outcome of a run in the abstract view: a result with its extent and overflow flag, or one failure. -/
inductive Verdict where
  | done (value : Int) (consumed : Nat) (ovf : Bool)
  | failed (kind : FailureKind) (pos : Nat)
  deriving DecidableEq, Repr

end Sys2Proof
end

