-- ==== Sys2Proof/WellFormed.lean ====
section
/-!
DEFINITION. Well-formedness. Every value of every header field is legal (30_encoding R66), so an `Instr` is well-formed by
its type and `Instr.legal` only tells the legal packet types from the illegal ones. A tree of the notation is checked.
-/
namespace Sys2Proof

/-- R66: the types 0 to 4 are legal, 5, 6 and 7 are not. -/
def Instr.legal : Instr → Bool
  | .sum _ | .product _ | .min _ | .max _ | .lit => true
  | .illegal5 | .illegal6 | .illegal7 => false

mutual
/-- A tree that the notation allows and that evaluates without a parse fault. R70: a literal has at least one group and its
value fits its groups. R65: its value is at most `INT_MAX`. R64: an operator has at most 15 children. -/
def Tree.wellFormed : Tree → Bool
  | .lit g v => decide (1 ≤ g) && decide (v < 16 ^ g) && decide ((v : Int) ≤ intMax)
  | .op _ ts => decide (ts.length ≤ 15) && Tree.wellFormedAll ts
/-- Every tree of the list is well-formed. -/
def Tree.wellFormedAll : List Tree → Bool
  | [] => true
  | t :: ts => t.wellFormed && Tree.wellFormedAll ts
end

end Sys2Proof
end

