-- ==== Sys2Proof/Decode.lean ====
section
/-!
DEFINITION. The bit-field helpers, the header decoder, the encoder of a header and of a packet tree, and the reading of a word
numbered as spec/opcode_table.json numbers it (00_scope R9, 30_encoding R60 to R71).
-/
namespace Sys2Proof

/-- R9, R41: the unsigned integer of a field, its first bit in stream order the most significant. -/
def bitsValue : List Bool → Nat
  | [] => 0
  | b :: bs => b.toNat * 2 ^ bs.length + bitsValue bs

/-- The `n` binary digits of `v`, most significant first (the inverse of `bitsValue`). -/
def bitsOf : Nat → Nat → List Bool
  | 0, _ => []
  | n + 1, v => v.testBit n :: bitsOf n v

/-- Why a header cannot be read (R81, R86): the field that does not fit below LEN. -/
inductive HeaderStop where
  | typeDoesNotFit
  | countDoesNotFit
  deriving DecidableEq, Repr

/-- R64: the count field after an operator's type field. -/
def decodeCount (operator : BitVec 4 → Instr) : List Bool → Except HeaderStop (Instr × List Bool)
  | c3 :: c2 :: c1 :: c0 :: rest => .ok (operator (BitVec.ofNat 4 (bitsValue [c3, c2, c1, c0])), rest)
  | _ => .error .countDoesNotFit

/-- R63: the packet header at the front of a bit string, and the bits after it. Total on every bit string: an illegal type
is a header of its own (its meaning raises InvalidPacketType), and only a field that does not fit is rejected, by name. -/
def decode : List Bool → Except HeaderStop (Instr × List Bool)
  | false :: false :: false :: rest => decodeCount .sum rest
  | false :: false :: true :: rest => decodeCount .product rest
  | false :: true :: false :: rest => decodeCount .min rest
  | false :: true :: true :: rest => decodeCount .max rest
  | true :: false :: false :: rest => .ok (.lit, rest)
  | true :: false :: true :: rest => .ok (.illegal5, rest)
  | true :: true :: false :: rest => .ok (.illegal6, rest)
  | true :: true :: true :: rest => .ok (.illegal7, rest)
  | _ => .error .typeDoesNotFit

/-- R61, R62, R66: the header bits of an instruction, in stream order. -/
def encode : Instr → List Bool
  | .sum c => [false, false, false] ++ bitsOf 4 c.toNat
  | .product c => [false, false, true] ++ bitsOf 4 c.toNat
  | .min c => [false, true, false] ++ bitsOf 4 c.toNat
  | .max c => [false, true, true] ++ bitsOf 4 c.toNat
  | .lit => [true, false, false]
  | .illegal5 => [true, false, true]
  | .illegal6 => [true, true, false]
  | .illegal7 => [true, true, true]

/-- R26, R34, R63: the number of header bits: 7 for an operator, 3 otherwise. -/
def Instr.headerSize : Instr → Nat
  | .sum _ | .product _ | .min _ | .max _ => 7
  | .lit | .illegal5 | .illegal6 | .illegal7 => 3

/-- R71: `grp(0) || ... || grp(g-1)` for a literal of `g` groups: each group is its continuation flag (1 on every group but
the last) and the next four bits of the value, most significant first. -/
def encodeGroups : Nat → Nat → List Bool
  | 0, _ => []
  | g + 1, v => decide (g ≠ 0) :: (bitsOf 4 (v / 16 ^ g % 16) ++ encodeGroups g v)

mutual
/-- R71: `Enc(tree)`. -/
def Tree.enc : Tree → List Bool
  | .lit g v => bitsOf 3 4 ++ encodeGroups g v
  | .op o ts => bitsOf 3 o.tid ++ bitsOf 4 ts.length ++ Tree.encAll ts
/-- The children's encodings, back to back (R62). -/
def Tree.encAll : List Tree → List Bool
  | [] => []
  | t :: ts => t.enc ++ Tree.encAll ts
end

mutual
/-- R71: the packet that parsing `Enc(tree)` at offset `p` gives back. -/
def Tree.packetAt (p : Nat) : Tree → Packet
  | .lit g v => .lit v p (3 + 5 * g)
  | .op o ts => .op o ts.length (Tree.packetsAt (p + 7) ts) p (7 + (Tree.encAll ts).length)
/-- The packets of consecutive trees, the first at offset `p`. -/
def Tree.packetsAt (p : Nat) : List Tree → List Packet
  | [] => []
  | t :: ts => t.packetAt p :: Tree.packetsAt (p + t.enc.length) ts
end

/-- How many header bits the word of a table row has (R63: 7 for format O, 3 otherwise). A row of 3 bits is told from one of
7 by the width asked for. Where the width is a whole byte both fit, and a word 4 to 7 is read as a row of 3 bits, whose
`match` words those are (log entry 15). -/
def tableHeaderBits (nbits w : Nat) : Nat :=
  if nbits ≤ 3 then 3 else if nbits = 7 then 7 else if 4 ≤ w ∧ w ≤ 7 then 3 else 7

/-- The bits, in stream order, of a table word: the header as a number with the first bit most significant (R63), then zeros
up to eight bits. -/
def tableStream (nbits w : Nat) : List Bool :=
  let n := tableHeaderBits nbits w
  bitsOf n w ++ List.replicate (8 - n) false

/-- The instruction that the decoder reads from a word numbered as spec/opcode_table.json numbers it. -/
def decodeTableWord (nbits w : Nat) : Option Instr :=
  if w < 2 ^ tableHeaderBits nbits w then
    match decode (tableStream nbits w) with
    | .ok (i, _) => some i
    | .error _ => none
  else none

end Sys2Proof
end

