-- ==== Sys2Proof/Machine/State.lean ====
section
/-!
DEFINITION. The state of the block: the host registers, the input bit memory, the engine's internal registers, the node store
and the two stacks (10_state R10 to R33), with the reasons a step can stop and the state after reset.
-/
namespace Sys2Proof.Machine

open Sys2Proof

/-- R18: the five values of STATUS. -/
inductive Status where
  | idle | parse | eval | done | fault
  deriving DecidableEq, Repr

/-- R30: the parse sub-states. -/
inductive ParseSub where
  | hdr | grp | ret
  deriving DecidableEq, Repr

/-- R30: the evaluation sub-states. -/
inductive EvalSub where
  | fetch | fold
  deriving DecidableEq, Repr

/-- R26: the type of a stored packet: 5 to 7 are never stored. -/
inductive NodeType where
  | op (o : Op)
  | lit
  deriving DecidableEq, Repr

/-- R26: one entry of the node store. -/
structure Node where
  tid : NodeType
  cnt : BitVec 4
  val : Word
  start : Nat
  size : Nat
  deriving DecidableEq, Repr

/-- R28: a frame of the parse stack: an operator's index in NODE and how many of its children are not yet complete. -/
structure PFrame where
  node : Nat
  rem : Nat
  deriving DecidableEq, Repr

/-- R29: a frame of the evaluation stack. -/
structure EFrame where
  op : Op
  rem : Nat
  acc : Word
  seeded : Bool
  deriving DecidableEq, Repr

/-- R16: the eight host registers. -/
inductive HostReg where
  | cmd | status | err | epos | result | consumed | flags | len
  deriving DecidableEq, Repr

/-- What happens in one step of the model: one access of the host (R11, R16, R25, R46), reset (R180), or a turn given to the
engine. -/
inductive HostAccess where
  | writeReg (r : HostReg) (v : Nat)
  | writeBit (p : Nat) (b : Bool)
  | writeByte (k : Nat) (v : BitVec 8)
  | reset
  | engine
  deriving DecidableEq, Repr

/-- Why a step of the model stops. None of these is a fault of the block: a fault of the block is the next state that
`raiseFault` gives (R158). -/
inductive Fault where
  /-- Raised by an instruction's meaning asked for in a sub-state where no rule of 42_sequencer acts for that packet type
  (R122). Safe: `step` never asks so. -/
  | noStepHere
  /-- Raised by a step that would read a NODE entry at or above NCNT, which R33 says no rule reads. Safe: it is raised only in
  states that no run reaches. -/
  | noNode
  /-- Raised by a host access in IDLE to a cell of BITS at offset MAXBITS or above, which R42 says does not exist. Safe. -/
  | noCell
  deriving DecidableEq, Repr

/-- Why an instruction has no meaning. -/
inductive Refusal where
  /-- Raised by `exec` for an instruction not modelled yet. Safe. No arm of `exec` does so. -/
  | notModelled (mnemonic : String)
  deriving DecidableEq, Repr

/-- The state of the machine. -/
structure State where
  /-- R18: STATUS -/
  status : Status
  /-- R19: ERR, `none` its value 0 -/
  err : Option FailureKind
  /-- R20: EPOS -/
  epos : Nat
  /-- R21: RESULT -/
  result : Word
  /-- R22: CONSUMED -/
  consumed : Nat
  /-- R15: FLAGS.OVF, as the fold steps set it. The host reads it once STATUS = DONE (log entry 22) -/
  ovf : Bool
  /-- R24: LEN -/
  len : Nat
  /-- R25: the cells of BITS written since reset, by strictly rising offset -/
  bits : List (Nat × Bool)
  /-- R13: POS -/
  pos : Nat
  /-- R14: EPTR -/
  eptr : Nat
  /-- R30: PSUB -/
  psub : ParseSub
  /-- R30: ESUB -/
  esub : EvalSub
  /-- R30: CUR -/
  cur : Nat
  /-- R30: LVAL -/
  lval : Word
  /-- R30: LOV -/
  lov : Bool
  /-- R30: VAL -/
  val : Word
  /-- R26: the NCNT entries of NODE in use -/
  node : List Node
  /-- R28: the PSP frames of PSTK, top first -/
  pstk : List PFrame
  /-- R29: the ESP frames of ESTK, top first -/
  estk : List EFrame
  /-- The model's own: what the outside world does next, oldest first (log entry 3) -/
  agenda : List HostAccess
  /-- The model's own: how many resets there have been, for the free values of unwritten cells (log entry 2) -/
  powerOn : Nat
  deriving DecidableEq, Repr

/-- R33: the state after reset. -/
def State.reset : State where
  status := .idle
  err := none
  epos := 0
  result := 0
  consumed := 0
  ovf := false
  len := 0
  bits := []
  pos := 0
  eptr := 0
  psub := .hdr
  esub := .fetch
  cur := 0
  lval := 0
  lov := false
  val := 0
  node := []
  pstk := []
  estk := []
  agenda := []
  powerOn := 0

/-- R26, R30: NCNT. -/
def State.ncnt (s : State) : Nat := s.node.length
/-- R28, R30: PSP. -/
def State.psp (s : State) : Nat := s.pstk.length
/-- R29, R30: ESP. -/
def State.esp (s : State) : Nat := s.estk.length

end Sys2Proof.Machine
end

