-- ==== Sys2Proof/Machine/Ops.lean ====
section
/-!
DEFINITION. The named operations over the input bit memory and the registers: cells, field reads, the fault entry and what
leads out of it, and the node store (00_scope R9, 20_memory R40 to R54, 42_sequencer R120, R121, 60_exceptions R158, R159).
-/
namespace Sys2Proof.Machine

open Sys2Proof

/-- What is stored at an offset of BITS, if anything has been written there since reset. -/
def readCell : List (Nat × Bool) → Nat → Option Bool
  | [], _ => none
  | (a, b) :: rest, p => if a = p then some b else readCell rest p

/-- Write one cell of BITS, keeping the offsets strictly rising. -/
def writeCell : List (Nat × Bool) → Nat → Bool → List (Nat × Bool)
  | [], p, b => [(p, b)]
  | (a, c) :: rest, p, b =>
    if p < a then (p, b) :: (a, c) :: rest
    else if p = a then (p, b) :: rest
    else (a, c) :: writeCell rest p b

/-- Every offset of the list is above `p`. -/
def cellsAbove (p : Nat) (m : List (Nat × Bool)) : Bool := m.all (fun c => decide (p < c.1))

/-- The canonical form of BITS: offsets strictly rising. An offset not listed reads as nothing written, which no entry says,
so equal memories are equal lists. -/
def Memory.wf : List (Nat × Bool) → Bool
  | [] => true
  | (a, _) :: rest => cellsAbove a rest && Memory.wf rest

/-- R25: the bit at an offset of BITS. A cell that nothing has written since reset holds a free value, the same at every read
until the next reset (R33, R186, U20; log entry 2). -/
def State.bit (s : State) (p : Nat) : Bool :=
  match readCell s.bits p with
  | some b => b
  | none => Config.unwrittenBit s.powerOn p

/-- The bits at offsets `p` to `p + n - 1`, in stream order. -/
def State.slice (s : State) (p n : Nat) : List Bool := (List.range' p n).map s.bit

/-- R9: `Bits(p, n)`. -/
def State.field (s : State) (p n : Nat) : Nat := bitsValue (s.slice p n)

/-- R24: the bit string the block works on, `BITS[0 .. LEN-1]`. -/
def State.stream (s : State) : List Bool := s.slice 0 s.len

/-- The first `n` unread bits, or those that are left below LEN where there are fewer: what a header step may read (R47: no
bit at or above LEN is read). -/
def State.window (s : State) (n : Nat) : List Bool := s.slice s.pos (min n (s.len - s.pos))

/-- R158: `raise K(pos)`, the whole effect. Hidden state, unspecified after a fault, stays as it was (log entry 12). -/
def raiseFault (k : FailureKind) (p : Nat) (s : State) : State :=
  { s with status := .fault, err := some k, epos := p, result := 0, consumed := 0, ovf := false }

/-- R120, R121: what START and CLEAR do alike. They differ in the STATUS they leave. BITS and LEN are not changed. -/
def initRun (st : Status) (s : State) : State :=
  { s with
    status := st, err := none, epos := 0, result := 0, consumed := 0, ovf := false
    pos := 0, eptr := 0, psub := .hdr, esub := .fetch, cur := 0, lval := 0, lov := false, val := 0
    node := [], pstk := [], estk := [] }

/-- R120: START, performed only when STATUS = IDLE. -/
def commandStart (s : State) : State := if s.status = .idle then initRun .parse s else s

/-- R121: CLEAR, performed in every state. R159: with reset, the only way out of FAULT. Hidden registers take the values that
R121 writes, where U21 leaves them at any value (DESIGN CHOICE, log entry 24). -/
def commandClear (s : State) : State := initRun .idle s

/-- R180: reset, accepted in every state. The contents of BITS become unspecified anew. The agenda is the outside world's and
stays (log entry 3). Hidden registers take the values of R33's table, where U21 leaves them at any value (DESIGN CHOICE, log
entry 24). -/
def applyReset (s : State) : State := { State.reset with agenda := s.agenda, powerOn := s.powerOn + 1 }

/-- R123, R124: append an entry to NODE. Its index is the NCNT before. -/
def appendNode (n : Node) (s : State) : State := { s with node := s.node ++ [n] }

/-- R26: replace the entry of NODE at an index in use. -/
def setNode (i : Nat) (n : Node) (s : State) : State := { s with node := s.node.set i n }

/-- R132: FOLD with the stack empty, the end of the run. -/
def finishRun (s : State) : State := { s with result := s.val, status := .done }

/-- R160: the level output `done`. -/
def State.doneLine (s : State) : Bool := s.status = .done || s.status = .fault

end Sys2Proof.Machine
end

