-- ==== Sys2Proof/Machine/Operands.lean ====
section
/-!
DEFINITION. The operand forms: the fields a packet type reads from the stream, and the entries and frames it works on
(30_encoding R61, R64, R65, 41_evaluate R103 to R107).
-/
namespace Sys2Proof.Machine

open Sys2Proof

/-- A literal group (R61): `grp[4]`, the continuation flag, and `grp[3:0]`, the value bits. -/
structure Group where
  more : Bool
  nibble : BitVec 4
  deriving DecidableEq, Repr

/-- R125: `Bits(POS, 5)` where it lies below LEN. A group is read whole or not at all (R85). -/
def State.group (s : State) : Option Group :=
  if s.len - s.pos < 5 then none
  else some ⟨(s.field s.pos 5).testBit 4, BitVec.ofNat 4 (s.field s.pos 5)⟩

/-- R125: `LVAL <- (LVAL * 16 + grp[3:0]) mod 2^W`. -/
def shiftInNibble (lval : Word) (nibble : BitVec 4) : Word := lval * 16 + nibble.setWidth 32

/-- The entry of NODE at an index, none where the index is not in use (R33: no rule reads there). -/
def State.nodeAt (s : State) (i : Nat) : Option Node := s.node[i]?

/-- R63: the instruction that a stored packet's header was. -/
def Node.instr (n : Node) : Instr :=
  match n.tid with
  | .op .sum => .sum n.cnt
  | .op .product => .product n.cnt
  | .op .min => .min n.cnt
  | .op .max => .max n.cnt
  | .lit => .lit

/-- The operator packet with a given child count. -/
def opInstr (o : Op) (c : BitVec 4) : Instr :=
  match o with
  | .sum => .sum c
  | .product => .product c
  | .min => .min c
  | .max => .max c

end Sys2Proof.Machine
end

