-- ==== Sys2Proof/Machine/Flags.lean ====
section
/-!
DEFINITION. The arithmetic of a fold step and the flag computations: OVF (10_state R15, 41_evaluate R104 to R107, R109) and the
internal LOV with the range check of a literal (42_sequencer R125, R126).
-/
namespace Sys2Proof.Machine

open Sys2Proof

/-- R9: `wrap_W(e)` as a word: the exact integer reduced modulo 2^W. -/
def wrapWord (e : Int) : Word := BitVec.ofInt 32 e

/-- R133: `e != wrap_W(e)`, the exact result lies outside `INT_MIN .. INT_MAX`. -/
def leavesRange (e : Int) : Bool := e ≠ (wrapWord e).toInt

/-- One operation of the fold of R102: `f` on the accumulator and the child's value, and its overflow indicator `o`. -/
structure Reduction where
  value : Word → Word → Word
  overflow : Word → Word → Bool

/-- R104: `f(a, b) = wrap_W(a + b)`, overflow when the exact sum is out of range. -/
def sumReduction : Reduction where
  value a b := wrapWord (a.toInt + b.toInt)
  overflow a b := leavesRange (a.toInt + b.toInt)

/-- R105: `f(a, b) = wrap_W(a * b)`, overflow when the exact product is out of range. -/
def productReduction : Reduction where
  value a b := wrapWord (a.toInt * b.toInt)
  overflow a b := leavesRange (a.toInt * b.toInt)

/-- R106: the smaller as signed integers, never an overflow. -/
def minReduction : Reduction where
  value a b := if b.toInt < a.toInt then b else a
  overflow _ _ := false

/-- R107: the larger as signed integers, never an overflow. -/
def maxReduction : Reduction where
  value a b := if b.toInt > a.toInt then b else a
  overflow _ _ := false

/-- R125: `LOV | (LVAL[W-1 : W-4] != 0)`, the four bits about to be shifted out of LVAL. -/
def lovAfter (lov : Bool) (lval : Word) : Bool := lov || decide (lval.extractLsb 31 28 ≠ 0)

/-- R126: `LOV = 1 or LVAL[W-1] = 1`, the literal's exact value is above INT_MAX. -/
def literalOverflows (lov : Bool) (lval : Word) : Bool := lov || lval.getLsbD 31

end Sys2Proof.Machine
end

