-- ==== Sys2Proof/Machine/Sequencer.lean ====
section
/-!
DEFINITION. The steps of the sequencer, one definition per rule of 42_sequencer, shared by the packet types that have them.
-/
namespace Sys2Proof.Machine

open Sys2Proof

/-- What a step answers. -/
abbrev Outcome := Host.Outcome State Fault Refusal

/-- R123, literal header: append the entry, clear LVAL and LOV, pass the type field, and read groups next. -/
def headerLiteral (s : State) : State :=
  { appendNode ⟨.lit, 0, 0, s.pos, 0⟩ s with
    cur := s.ncnt, lval := 0, lov := false, pos := s.pos + 3, psub := .grp }

/-- R124, operator header: append the entry and pass the header. Without children the packet is complete at once, else descend:
the next header is that of child 0. -/
def headerOperator (o : Op) (c : BitVec 4) (s : State) : State :=
  let t := { appendNode ⟨.op o, c, 0, s.pos, 0⟩ s with pos := s.pos + 7 }
  if c = 0 then { t with cur := s.ncnt, psub := .ret }
  else { t with pstk := ⟨s.ncnt, c.toNat⟩ :: s.pstk, psub := .hdr }

/-- R87, R123: an illegal type raises InvalidPacketType at the packet's boundary. -/
def headerIllegal (s : State) : State := raiseFault .invalidPacketType s.pos s

/-- R126: the literal's final group has been read into LVAL and LOV. -/
def finishLiteral (s : State) : Outcome :=
  match s.nodeAt s.cur with
  | none => .fault .noNode
  | some n =>
    if literalOverflows s.lov s.lval then .next (raiseFault .literalOverflow n.start s)
    else .next { setNode s.cur { n with val := s.lval } s with psub := .ret }

/-- R125: one literal group. -/
def groupStep (s : State) : Outcome :=
  match s.group with
  | none => .next (raiseFault .outOfBits s.pos s)
  | some g =>
    let t := { s with
      lov := lovAfter s.lov s.lval, lval := shiftInNibble s.lval g.nibble, pos := s.pos + 5, psub := .grp }
    if g.more then .next t else finishLiteral t

/-- R127: complete the packet CUR and return to its parent, or end the parse phase where there is none. -/
def returnStep (s : State) : Outcome :=
  match s.nodeAt s.cur with
  | none => .fault .noNode
  | some n =>
    let t := setNode s.cur { n with size := s.pos - n.start } s
    match s.pstk with
    | [] => .next { t with consumed := s.pos, eptr := 0, estk := [], esub := .fetch, status := .eval }
    | f :: rest =>
      if f.rem - 1 = 0 then .next { t with cur := f.node, pstk := rest, psub := .ret }
      else .next { t with pstk := { f with rem := f.rem - 1 } :: rest, psub := .hdr }

/-- R130: fetch a literal. -/
def fetchLiteral (s : State) : Outcome :=
  match s.nodeAt s.eptr with
  | none => .fault .noNode
  | some n => .next { s with val := n.val, eptr := s.eptr + 1, esub := .fold }

/-- R131: fetch an operator with `c` children. -/
def fetchOperator (o : Op) (c : BitVec 4) (s : State) : Outcome :=
  match s.nodeAt s.eptr with
  | none => .fault .noNode
  | some n =>
    if c = 0 then .next (raiseFault .emptyOperator n.start s)
    else .next { s with estk := ⟨o, c.toNat, 0, false⟩ :: s.estk, eptr := s.eptr + 1, esub := .fetch }

/-- R133: the accumulator of the top frame after the child's value. The first child seeds it. -/
def foldAcc (r : Reduction) (f : EFrame) (val : Word) : Word := if f.seeded then r.value f.acc val else val

/-- R133: OVF after the fold step, sticky (R15). -/
def foldOvf (r : Reduction) (f : EFrame) (val : Word) (ovf : Bool) : Bool :=
  if f.seeded then ovf || r.overflow f.acc val else ovf

/-- R133: FOLD into the enclosing operator. With no frame the step is the end of the run (R132), which belongs to no packet
type. -/
def foldStep (r : Reduction) (s : State) : Outcome :=
  match s.estk with
  | [] => .fault .noStepHere
  | f :: rest =>
    let t := { s with ovf := foldOvf r f s.val s.ovf }
    if f.rem - 1 = 0 then .next { t with val := foldAcc r f s.val, estk := rest, esub := .fold }
    else .next { t with
      estk := { f with acc := foldAcc r f s.val, rem := f.rem - 1, seeded := true } :: rest, esub := .fetch }

/-- The steps of an operator packet, by the sub-state (opcode table: R123 and R124, R127, R131, R133). -/
def operatorStep (o : Op) (r : Reduction) (c : BitVec 4) (s : State) : Outcome :=
  match s.status with
  | .parse =>
    match s.psub with
    | .hdr => .next (headerOperator o c s)
    | .grp => .fault .noStepHere
    | .ret => returnStep s
  | .eval =>
    match s.esub with
    | .fetch => fetchOperator o c s
    | .fold => foldStep r s
  | .idle | .done | .fault => .fault .noStepHere

/-- The steps of a literal packet, by the sub-state (opcode table: R123, R125 and R126, R127, R130). -/
def literalStep (s : State) : Outcome :=
  match s.status with
  | .parse =>
    match s.psub with
    | .hdr => .next (headerLiteral s)
    | .grp => groupStep s
    | .ret => returnStep s
  | .eval =>
    match s.esub with
    | .fetch => fetchLiteral s
    | .fold => .fault .noStepHere
  | .idle | .done | .fault => .fault .noStepHere

/-- The one step of a packet of an illegal type (opcode table: R123). -/
def illegalStep (s : State) : Outcome :=
  match s.status, s.psub with
  | .parse, .hdr => .next (headerIllegal s)
  | _, _ => .fault .noStepHere

end Sys2Proof.Machine
end

