-- ==== Sys2Proof/Machine/Illegal.lean ====
section
/-!
DEFINITION. The meanings of the three illegal packet types: each raises InvalidPacketType (30_encoding R66, 40_parse R87).
-/
namespace Sys2Proof.Machine

/-- Type 5 (R87). -/
def execIllegal5 (s : State) : Outcome := illegalStep s

/-- Type 6 (R87). -/
def execIllegal6 (s : State) : Outcome := illegalStep s

/-- Type 7 (R87). -/
def execIllegal7 (s : State) : Outcome := illegalStep s

end Sys2Proof.Machine
end

