-- ==== Sys2Proof/Machine/Literal.lean ====
section
/-!
DEFINITION. The meaning of the literal packet (40_parse R85, 41_evaluate R103).
-/
namespace Sys2Proof.Machine

/-- LIT (R85, R103). -/
def execLit (s : State) : Outcome := literalStep s

end Sys2Proof.Machine
end

