-- ==== Sys2Proof/Machine/Operator.lean ====
section
/-!
DEFINITION. The meanings of the four operator packets (40_parse R86, 41_evaluate R104 to R107).
-/
namespace Sys2Proof.Machine

open Sys2Proof

/-- SUM (R86, R104). -/
def execSum (c : BitVec 4) (s : State) : Outcome := operatorStep .sum sumReduction c s

/-- PRODUCT (R86, R105). -/
def execProduct (c : BitVec 4) (s : State) : Outcome := operatorStep .product productReduction c s

/-- MIN (R86, R106). -/
def execMin (c : BitVec 4) (s : State) : Outcome := operatorStep .min minReduction c s

/-- MAX (R86, R107). -/
def execMax (c : BitVec 4) (s : State) : Outcome := operatorStep .max maxReduction c s

end Sys2Proof.Machine
end

