-- ==== Sys2Proof/Machine/Dispatch.lean ====
section
/-!
DEFINITION. One arm per packet type: `exec i s` is the step of the packet type `i` in the sub-state of `s`.
-/
namespace Sys2Proof.Machine

open Sys2Proof

def exec (i : Instr) (s : State) : Host.Outcome State Fault Refusal :=
  match i with
  | .sum c => Sys2Proof.Machine.execSum c s
  | .product c => Sys2Proof.Machine.execProduct c s
  | .min c => Sys2Proof.Machine.execMin c s
  | .max c => Sys2Proof.Machine.execMax c s
  | .lit => Sys2Proof.Machine.execLit s
  | .illegal5 => Sys2Proof.Machine.execIllegal5 s
  | .illegal6 => Sys2Proof.Machine.execIllegal6 s
  | .illegal7 => Sys2Proof.Machine.execIllegal7 s

end Sys2Proof.Machine
end

