-- ==== Sys2Proof/Machine/Fetch.lean ====
section
/-!
DEFINITION. What the engine does next, read from the state: the packet header at POS in a HDR step, the stored header of the
packet at hand in the others (42_sequencer R122 to R133).
-/
namespace Sys2Proof.Machine

open Sys2Proof

/-- What the engine's next step is. -/
inductive Pending where
  /-- the step of a packet type -/
  | run (i : Instr)
  /-- a fault before any packet type is known, or before its header is whole (R123, R124) -/
  | raise (k : FailureKind) (p : Nat)
  /-- the end of the run (R132) -/
  | finish
  /-- no step (R122) -/
  | rest
  /-- a stop of the model -/
  | stop (f : Fault)
  deriving DecidableEq, Repr

/-- R123, R124: read the header at POS: the type field, then an operator's count, each checked against LEN before it is read.
A header is at most 7 bits. -/
def fetchHeader (s : State) : Pending :=
  match decode (s.window 7) with
  | .ok (i, _) => .run i
  | .error .typeDoesNotFit => .raise .outOfBits s.pos
  | .error .countDoesNotFit => .raise .outOfBits (s.pos + 3)

/-- The step of the packet stored at an index of NODE. -/
def storedPacket (s : State) (i : Nat) : Pending :=
  match s.nodeAt i with
  | some n => .run n.instr
  | none => .stop .noNode

/-- R122: the step is determined by (STATUS, PSUB) or (STATUS, ESUB). A FOLD step belongs to the operator of the top frame. Its
count plays no part there, so the children left stand for it (log entry 6). -/
def pending (s : State) : Pending :=
  match s.status with
  | .parse =>
    match s.psub with
    | .hdr => fetchHeader s
    | .grp => .run .lit
    | .ret => storedPacket s s.cur
  | .eval =>
    match s.esub with
    | .fetch => storedPacket s s.eptr
    | .fold =>
      match s.estk with
      | [] => .finish
      | f :: _ => .run (opInstr f.op (BitVec.ofNat 4 f.rem))
  | .idle | .done | .fault => .rest

/-- Place the header of a table word where the next step reads it: at POS, with LEN at the eighth bit from there and the parse
phase at a header step. It stands for the host's loading and START (log entry 16). -/
def placeHeader (s : State) (stream : List Bool) : State :=
  { s with
    status := .parse, psub := .hdr, len := s.pos + stream.length, agenda := []
    bits := (stream.zipIdx s.pos).foldl (fun m c => writeCell m c.2 c.1) s.bits }

end Sys2Proof.Machine
end

