-- ==== Sys2Proof/Machine/HostPort.lean ====
section
/-!
DEFINITION. The host's side: reads and writes of the eight registers and of the cells of BITS (10_state R16 to R25, 20_memory
R46, R54, 70_reset_and_hazards R180, R190).
-/
namespace Sys2Proof.Machine

open Sys2Proof

/-- R16: the numbers of the registers. -/
def HostReg.number : HostReg → BitVec 3
  | .cmd => 0
  | .status => 1
  | .err => 2
  | .epos => 3
  | .result => 4
  | .consumed => 5
  | .flags => 6
  | .len => 7

/-- R16: the widths of the registers. -/
def HostReg.width : HostReg → Nat
  | .cmd => 2
  | .status => 3
  | .err => 3
  | .epos => Config.aw
  | .result => 32
  | .consumed => Config.aw
  | .flags => 1
  | .len => Config.aw

/-- R18: the values of STATUS. -/
def Status.code : Status → Nat
  | .idle => 0
  | .parse => 1
  | .eval => 2
  | .done => 3
  | .fault => 4

/-- R150: the codes of the failure kinds. -/
def FailureKind.code : FailureKind → Nat
  | .invalidInput => 1
  | .invalidPacketType => 2
  | .outOfBits => 3
  | .emptyOperator => 4
  | .literalOverflow => 5

/-- R19, R150: the value of ERR. -/
def errCode : Option FailureKind → Nat
  | none => 0
  | some k => FailureKind.code k

/-- R15, R23, R187, R190: what FLAGS reads: OVF once STATUS = DONE, and 0 before, though a fold step may have set OVF by then
(log entry 22). -/
def State.flagsRead (s : State) : Nat := if s.status = .done then s.ovf.toNat else 0

/-- R16: what the host reads from a register, in every state and with no side effect. CMD reads 0 (R17). -/
def hostRead (s : State) : HostReg → Nat
  | .cmd => 0
  | .status => Status.code s.status
  | .err => errCode s.err
  | .epos => s.epos
  | .result => s.result.toNat
  | .consumed => s.consumed
  | .flags => s.flagsRead
  | .len => s.len

/-- R25: what the host reads from a cell of BITS. There is no cell at MAXBITS or above (R42). -/
def hostReadBit (s : State) (p : Nat) : Option Bool := if p < Config.maxBits then some (s.bit p) else none

/-- R46: what a byte of the load window holds. Its bits that have no cell may be anything. -/
def hostReadByte (s : State) (k : Nat) : BitVec 8 := BitVec.ofNat 8 (s.field (8 * k) 8)

/-- R17: a write to CMD. The register has two bits, and bits above them are ignored (R16). -/
def writeCmd (v : Nat) (s : State) : State :=
  match v % 4 with
  | 1 => commandStart s
  | 2 => commandClear s
  | _ => s

/-- R24: a write to LEN, performed only when STATUS = IDLE and the value is at most MAXBITS. -/
def writeLen (v : Nat) (s : State) : State :=
  if s.status = .idle ∧ v ≤ Config.maxBits then { s with len := v } else s

/-- R16: a write to a register. The read-only ones keep their values. -/
def writeReg (r : HostReg) (v : Nat) (s : State) : State :=
  match r with
  | .cmd => writeCmd v s
  | .len => writeLen v s
  | .status | .err | .epos | .result | .consumed | .flags => s

/-- R25: a write to a cell of BITS, dropped when STATUS is not IDLE. -/
def writeBit (p : Nat) (b : Bool) (s : State) : Outcome :=
  if s.status ≠ .idle then .next s
  else if p < Config.maxBits then .next { s with bits := writeCell s.bits p b }
  else .fault .noCell

/-- R46: byte `k` holds the bits at offsets `8k .. 8k+7`, the first in the byte's most significant bit. Of a last byte that
reaches beyond MAXBITS only the bits that have a cell are written (log entry 11). -/
def writeByteCells (k : Nat) (v : BitVec 8) (m : List (Nat × Bool)) : List (Nat × Bool) :=
  (List.range 8).foldl
    (fun m j => if 8 * k + j < Config.maxBits then writeCell m (8 * k + j) (v.getMsbD j) else m) m

/-- R25, R46: a write of a byte of BITS, dropped when STATUS is not IDLE. -/
def writeByte (k : Nat) (v : BitVec 8) (s : State) : Outcome :=
  if s.status ≠ .idle then .next s
  else if 8 * k < Config.maxBits then .next { s with bits := writeByteCells k v s.bits }
  else .fault .noCell

/-- Perform one host access. A turn of the engine is no access and leaves the state as it is. -/
def perform (a : HostAccess) (s : State) : Outcome :=
  match a with
  | .writeReg r v => .next (writeReg r v s)
  | .writeBit p b => writeBit p b s
  | .writeByte k v => writeByte k v s
  | .reset => .next (applyReset s)
  | .engine => .next s

end Sys2Proof.Machine
end

