-- ==== Sys2Proof/Machine/Step.lean ====
section
/-!
DEFINITION. One step: the oldest entry of the agenda, or the engine's step where the agenda is empty or gives it the turn.
-/
namespace Sys2Proof.Machine

open Sys2Proof

/-- R122: one step of the engine. Without a step (IDLE, DONE, FAULT) the state does not change. -/
def engineStep (s : State) : Host.Outcome State Fault Refusal :=
  match pending s with
  | .run i => exec i s
  | .raise k p => .next (raiseFault k p s)
  | .finish => .next (finishRun s)
  | .rest => .next s
  | .stop f => .fault f

/-- One step of the machine (R11: host and engine never act at the same time). -/
def step (s : State) : Host.Outcome State Fault Refusal :=
  match s.agenda with
  | [] => engineStep s
  | .engine :: later => engineStep { s with agenda := later }
  | a :: later => perform a { s with agenda := later }

/-- `s` with a table word's header where the next step reads it. -/
def State.withFetchWord (s : State) (nbits w : Nat) : State := placeHeader s (tableStream nbits w)

end Sys2Proof.Machine
end

