-- ==== Sys2Proof/Machine/Parse.lean ====
section
/-!
DEFINITION. The functional view of the parse: the Packet Parser and the recursive sub-packet boundary locator, over a bit string
(40_parse R80 to R91), and the tree's pre-order list (10_state R35).
-/
namespace Sys2Proof.Machine

open Sys2Proof

/-- R9: `Bits(p, n)` of a bit string. -/
def bitsAt (bs : List Bool) (p n : Nat) : Nat := bitsValue ((bs.drop p).take n)

/-- R80: `classify(p)`. -/
def classify (bs : List Bool) (p : Nat) : Nat := bitsAt bs p 3

/-- R85: the loop over the groups, from offset `q` with the value `u` so far. It answers the exact value and the offset after
the final group. -/
def parseGroups : List Bool → Nat → Nat → Except Raise (Nat × Nat)
  | more :: n3 :: n2 :: n1 :: n0 :: rest, q, u =>
    let u' := u * 16 + bitsValue [n3, n2, n1, n0]
    if more then parseGroups rest (q + 5) u' else .ok (u', q + 5)
  | _, q, _ => .error ⟨.outOfBits, q⟩

/-- R85: `parse_literal(p)`. -/
def parseLiteral (bs : List Bool) (p : Nat) : Except Raise Packet :=
  match parseGroups (bs.drop (p + 3)) (p + 3) 0 with
  | .error r => .error r
  | .ok (u, q) => if (u : Int) > intMax then .error ⟨.literalOverflow, p⟩ else .ok (.lit u p (q - p))

/-- R86: the children of an operator, `c` of them from offset `q`, each parsed by `parse`. It answers them with the offset
after the last. -/
def parseChildren (parse : Nat → Except Raise Packet) : Nat → Nat → Except Raise (List Packet × Nat)
  | 0, q => .ok ([], q)
  | c + 1, q =>
    match parse q with
    | .error r => .error r
    | .ok child =>
      match parseChildren parse c (q + child.size) with
      | .error r => .error r
      | .ok (children, q') => .ok (child :: children, q')

/-- R86: `parse_operator(p, t)`, its children parsed by `parse`. -/
def parseOperator (parse : Nat → Except Raise Packet) (bs : List Bool) (p t : Nat) : Except Raise Packet :=
  if bs.length - p < 7 then .error ⟨.outOfBits, p + 3⟩
  else
    let c := bitsAt bs (p + 3) 4
    match parseChildren parse c (p + 7) with
    | .error r => .error r
    | .ok (children, q) => .ok (.op (Op.ofType t) c children p (q - p))

/-- R81: `parse_packet(p)`. The first argument bounds the nesting depth (R90: at most `floor(LEN / 7)`). At 0 it answers
OutOfBits, which a run never sees (log entry 18). -/
def parsePacket : Nat → List Bool → Nat → Except Raise Packet
  | 0, _, p => .error ⟨.outOfBits, p⟩
  | depth + 1, bs, p =>
    if bs.length - p < 3 then .error ⟨.outOfBits, p⟩
    else
      let t := classify bs p
      if t ≥ 5 then .error ⟨.invalidPacketType, p⟩
      else if t = 4 then parseLiteral bs p
      else parseOperator (parsePacket depth bs) bs p t

/-- R84: the parse of a run: the outermost packet, at offset 0. -/
def parseRun (bs : List Bool) : Except Raise Packet := parsePacket (bs.length / 7 + 1) bs 0

mutual
/-- R35: `flat(P)`, the tree in pre-order. -/
def flat : Packet → List Node
  | .lit v start size => [⟨.lit, 0, BitVec.ofNat 32 v, start, size⟩]
  | .op o c children start size => ⟨.op o, BitVec.ofNat 4 c, 0, start, size⟩ :: flatAll children
/-- The pre-order lists of consecutive packets. -/
def flatAll : List Packet → List Node
  | [] => []
  | p :: ps => flat p ++ flatAll ps
end

mutual
/-- R34: the invariants of a packet: the child count, the lengths (R88), and where each child starts. -/
def packetWf : Packet → Bool
  | .lit v _ size => decide ((v : Int) ≤ intMax) && decide (8 ≤ size) && decide ((size - 3) % 5 = 0)
  | .op _ c children start size =>
    decide (children.length = c) && decide (c ≤ 15) && decide (size = 7 + (children.map Sys2Proof.Packet.size).sum) &&
      packetsWf (start + 7) children
/-- The packets lie back to back from offset `p`, each within its invariants. -/
def packetsWf (p : Nat) : List Packet → Bool
  | [] => true
  | c :: cs => decide (c.start = p) && packetWf c && packetsWf (p + c.size) cs
end

mutual
/-- R88, R143: the number of packets of a tree. -/
def packetCount : Packet → Nat
  | .lit .. => 1
  | .op _ _ children _ _ => 1 + packetCountAll children
/-- The number of packets of several trees. -/
def packetCountAll : List Packet → Nat
  | [] => 0
  | p :: ps => packetCount p + packetCountAll ps
end

mutual
/-- R88, R143: the number of literals of a tree. -/
def literalCount : Packet → Nat
  | .lit .. => 1
  | .op _ _ children _ _ => literalCountAll children
/-- The number of literals of several trees. -/
def literalCountAll : List Packet → Nat
  | [] => 0
  | p :: ps => literalCount p + literalCountAll ps
end

mutual
/-- R88, R143: the total number of literal groups of a tree (R85: a literal's size is `3 + 5 * g`). -/
def groupCount : Packet → Nat
  | .lit _ _ size => (size - 3) / 5
  | .op _ _ children _ _ => groupCountAll children
/-- The number of groups of several trees. -/
def groupCountAll : List Packet → Nat
  | [] => 0
  | p :: ps => groupCount p + groupCountAll ps
end

end Sys2Proof.Machine
end

