-- ==== Sys2Proof/Machine/Evaluate.lean ====
section
/-!
DEFINITION. The functional view of the evaluation, over exact integers (41_evaluate R100 to R111), and the outcome of a run
(42_sequencer R140).
-/
namespace Sys2Proof.Machine

open Sys2Proof

/-- R9: `wrap_W(e)`, the integer congruent to `e` modulo 2^W in `INT_MIN .. INT_MAX`. -/
def wrapInt (e : Int) : Int := (e - intMin) % 4294967296 + intMin

/-- R104, R105, R109: the exact result lies outside `INT_MIN .. INT_MAX`. -/
def outsideRange (e : Int) : Bool := decide (e > intMax) || decide (e < intMin)

/-- R104 to R107: the operation `f(a, b)`. -/
def opValue : Op → Int → Int → Int
  | .sum, a, b => wrapInt (a + b)
  | .product, a, b => wrapInt (a * b)
  | .min, a, b => if b < a then b else a
  | .max, a, b => if b > a then b else a

/-- R104 to R107: the overflow indicator `o(a, b)`. -/
def opOverflow : Op → Int → Int → Bool
  | .sum, a, b => outsideRange (a + b)
  | .product, a, b => outsideRange (a * b)
  | .min, _, _ => false
  | .max, _, _ => false

/-- R102: the fold over the values after the first, from the accumulator and the overflow so far. -/
def foldFrom (o : Op) : Int × Bool → List (Int × Bool) → Int × Bool
  | acc, [] => acc
  | (a, ovf), (v, ov) :: vs => foldFrom o (opValue o a v, ovf || ov || opOverflow o a v) vs

/-- R102, R108: the value of an operator at `start` from its children's values. Without children it has none. -/
def foldValues (o : Op) (start : Nat) : List (Int × Bool) → Except Raise (Int × Bool)
  | [] => .error ⟨.emptyOperator, start⟩
  | v :: vs => .ok (foldFrom o v vs)

mutual
/-- R102, R103: `Evaluate(P)`, the pair (Value, Ovf). -/
def evaluate : Packet → Except Raise (Int × Bool)
  | .lit v _ _ => .ok (v, false)
  | .op o c children start _ =>
    if c = 0 then .error ⟨.emptyOperator, start⟩
    else
      match evaluateAll children with
      | .error r => .error r
      | .ok vs => foldValues o start vs
/-- R101: the children in stream order. A fault propagates. -/
def evaluateAll : List Packet → Except Raise (List (Int × Bool))
  | [] => .ok []
  | p :: ps =>
    match evaluate p with
    | .error r => .error r
    | .ok v =>
      match evaluateAll ps with
      | .error r => .error r
      | .ok vs => .ok (v :: vs)
end

/-- R110: the operation over the unbounded integers. -/
def opExact : Op → Int → Int → Int
  | .sum, a, b => a + b
  | .product, a, b => a * b
  | .min, a, b => if b < a then b else a
  | .max, a, b => if b > a then b else a

mutual
/-- R110: the value of a tree computed over the unbounded integers, where it has one. -/
def exactValue : Packet → Option Int
  | .lit v _ _ => some v
  | .op o _ children _ _ =>
    match exactValues children with
    | some (v :: vs) => some (vs.foldl (opExact o) v)
    | _ => none
/-- The exact values of several trees. -/
def exactValues : List Packet → Option (List Int)
  | [] => some []
  | p :: ps =>
    match exactValue p, exactValues ps with
    | some v, some vs => some (v :: vs)
    | _, _ => none
end

/-- R140: the outcome of a run on a bit string, by the functional view. -/
def verdictOf (bs : List Bool) : Verdict :=
  match parseRun bs with
  | .error r => .failed r.kind r.pos
  | .ok t =>
    match evaluate t with
    | .error r => .failed r.kind r.pos
    | .ok (v, ovf) => .done v t.size ovf

/-- R140, R189: the outcome a state shows: RESULT, CONSUMED and OVF in DONE, ERR and EPOS in FAULT, else none. -/
def State.verdict (s : State) : Option Verdict :=
  match s.status, s.err with
  | .done, _ => some (.done s.result.toInt s.consumed s.ovf)
  | .fault, some k => some (.failed k s.epos)
  | _, _ => none

end Sys2Proof.Machine
end

