-- ==== Sys2Proof/Machine/Facade.lean ====
section
/-!
DEFINITION. The host-side Bit Converter and Decoder Facade (20_memory R43 to R46, 60_exceptions R152, R163,
70_reset_and_hazards R188), and the hexadecimal rendering of a tree (30_encoding R71).
-/
namespace Sys2Proof.Machine

open Sys2Proof

/-- R44: the value of a hexadecimal digit, none for any other character. -/
def hexDigit (c : Char) : Option Nat :=
  let n := c.toNat
  if 48 ≤ n ∧ n ≤ 57 then some (n - 48)
  else if 65 ≤ n ∧ n ≤ 70 then some (n - 55)
  else if 97 ≤ n ∧ n ≤ 102 then some (n - 87)
  else none

/-- R43: four bits a character, most significant first, none where a character is no hexadecimal digit. -/
def hexBits : List Char → Option (List Bool)
  | [] => some []
  | c :: cs =>
    match hexDigit c, hexBits cs with
    | some d, some bs => some (bitsOf 4 d ++ bs)
    | _, _ => none

/-- R43 to R45: `hex_to_bits`. It fails with InvalidInput on the empty string and on any other character than the 22. -/
def hexToBits (hex : List Char) : Except FailureKind (List Bool) :=
  match hex, hexBits hex with
  | [], _ => .error .invalidInput
  | _, none => .error .invalidInput
  | _, some bs => .ok bs

/-- R44: the uppercase character of a digit's value. -/
def hexChar (d : Nat) : Char := Char.ofNat (if d < 10 then 48 + d else 55 + d)

/-- R71: each four bits as one character, a partial last four padded on the right with zero bits. -/
def hexRender : List Bool → List Char
  | [] => []
  | [a] => [hexChar (bitsValue [a, false, false, false])]
  | [a, b] => [hexChar (bitsValue [a, b, false, false])]
  | [a, b, c] => [hexChar (bitsValue [a, b, c, false])]
  | a :: b :: c :: d :: rest => hexChar (bitsValue [a, b, c, d]) :: hexRender rest

/-- R71: `Hex(tree)`. -/
def treeHex (t : Tree) : List Char := hexRender t.enc

/-- R6, R188: `decode(hex)`, by the functional view: the result or one failure kind (R163: overflow is no failure). DESIGN
CHOICE: R188 requires that the string's bits fit in MAXBITS and names no failure kind for where they do not. This function has
no such condition and answers there as a block of greater capacity would (log entry 23). -/
def decodeHex (hex : List Char) : Except FailureKind Int :=
  match hexToBits hex with
  | .error k => .error k
  | .ok bs =>
    match verdictOf bs with
    | .done v _ _ => .ok v
    | .failed k _ => .error k

/-- The writes of a bit string into BITS from offset `p` (R186). -/
def loadBits (p : Nat) : List Bool → List HostAccess
  | [] => []
  | b :: bs => .writeBit p b :: loadBits (p + 1) bs

/-- R188: the host's sequence CLEAR, load, LEN, START. -/
def hostSequence (bs : List Bool) : List HostAccess :=
  .writeReg .cmd 2 :: (loadBits 0 bs ++ [.writeReg .len bs.length, .writeReg .cmd 1])

end Sys2Proof.Machine
end

