-- ==== Sys2Proof/Safety.lean ====
section
/-!
DEFINITION. What claims are stated in: the host's view of a state, the invariant of the machine, and the shape of a fold step's
result.
-/
namespace Sys2Proof.Machine

open Sys2Proof

/-- R31: the host-visible state is STATUS, ERR, EPOS, RESULT, CONSUMED, FLAGS, LEN and the cells of BITS. Two states look the
same to the host: with these equal it reads the same from every register, FLAGS being read from STATUS and OVF. -/
structure SameView (s t : State) : Prop where
  status : s.status = t.status
  err : s.err = t.err
  epos : s.epos = t.epos
  result : s.result = t.result
  consumed : s.consumed = t.consumed
  ovf : s.ovf = t.ovf
  len : s.len = t.len
  cells : ∀ p, s.bit p = t.bit p

/-- R33: every register at its reset value, the stores and stacks empty, and no cell of BITS written: each reads its free
value (log entry 2). -/
structure AtReset (t : State) : Prop where
  status : t.status = .idle
  err : t.err = none
  epos : t.epos = 0
  result : t.result = 0
  consumed : t.consumed = 0
  ovf : t.ovf = false
  len : t.len = 0
  pos : t.pos = 0
  eptr : t.eptr = 0
  ncnt : t.ncnt = 0
  psp : t.psp = 0
  esp : t.esp = 0
  cur : t.cur = 0
  lval : t.lval = 0
  lov : t.lov = false
  val : t.val = 0
  psub : t.psub = .hdr
  esub : t.esub = .fetch
  cells : ∀ p, t.bit p = Config.unwrittenBit t.powerOn p

/-- How many children the header of a stored packet announces. -/
def announced (n : Node) : Nat :=
  match n.tid with
  | .lit => 0
  | .op _ => n.cnt.toNat

/-- R35: reading a pre-order list of packets while `d` packets are still due: what is due after the list, none where a packet
comes that is not due. -/
def dueAfter : Nat → List Node → Option Nat
  | d, [] => some d
  | 0, _ :: _ => none
  | d + 1, n :: ns => dueAfter (d + announced n) ns

/-- The children still to begin of the operators whose frames are on the parse stack, with one child of each in progress. -/
def dueParse (st : List PFrame) : Nat := (st.map (fun f => f.rem - 1)).sum

/-- The children still to fetch of the operators whose frames are on the evaluation stack, with one child of each in progress. -/
def dueEval (st : List EFrame) : Nat := (st.map (fun f => f.rem - 1)).sum

/-- A word that is not negative as a signed integer. -/
abbrev NonNeg (w : Word) : Prop := 0 ≤ w.toInt

/-- What holds of the host registers and of BITS in every status. -/
structure RegInv (s : State) : Prop where
  /-- the canonical form of BITS, the model's own (log entry 19) -/
  bits_wf : Memory.wf s.bits = true
  /-- R19: ERR is nonzero exactly when STATUS = FAULT -/
  err_iff : s.err.isSome = true ↔ s.status = .fault
  /-- R19: InvalidInput is never written by the engine -/
  err_kind : s.err ≠ some .invalidInput
  /-- R20: 0 in every other state -/
  epos_zero : s.status ≠ .fault → s.epos = 0
  /-- R151 -/
  epos_le : s.epos ≤ s.len
  /-- R21: 0 in every other state -/
  result_zero : s.status ≠ .done → s.result = 0
  /-- R22: 0 in IDLE, in PARSE and in FAULT -/
  consumed_zero : s.status ≠ .eval → s.status ≠ .done → s.consumed = 0
  /-- R22, R68 -/
  consumed_range : s.status = .eval ∨ s.status = .done → 7 ≤ s.consumed ∧ s.consumed ≤ s.len
  /-- R15: OVF is set in the evaluation phase only -/
  ovf_clear : s.status ≠ .eval → s.status ≠ .done → s.ovf = false
  /-- R110: a negative value occurs only if OVF = 1 -/
  result_nonneg : s.ovf = false → NonNeg s.result
  /-- R28: PSTK is empty outside the parse phase (after a fault it is unspecified, R158) -/
  pstk_nil : s.status ≠ .parse → s.status ≠ .fault → s.pstk = []
  /-- R29: ESTK is empty outside the evaluation phase (after a fault it is unspecified, R158) -/
  estk_nil : s.status ≠ .eval → s.status ≠ .fault → s.estk = []

/-- What holds during the parse phase. -/
structure ParseInv (s : State) : Prop where
  /-- R13 -/
  pos_le : s.pos ≤ s.len
  /-- R26: every packet stored so far began at or before POS -/
  starts : ∀ n ∈ s.node, n.start ≤ s.pos
  /-- R26: literal values are at most INT_MAX -/
  vals : ∀ n ∈ s.node, NonNeg n.val
  /-- R120: no value has been computed yet -/
  val_zero : s.val = 0
  /-- R28 -/
  frames : ∀ f ∈ s.pstk, 1 ≤ f.rem ∧ f.rem ≤ 15 ∧ f.node < s.node.length
  /-- R141: every frame is an operator that is an entry of NODE -/
  depth : s.pstk.length ≤ s.node.length
  /-- R35, R140: the list so far is pre-order, and what is due is what the frames say -/
  due : dueAfter 1 s.node = some (dueParse s.pstk + if s.psub = .hdr then 1 else 0)
  /-- R142: every stored packet has advanced POS by 7 bits of its own, a literal being read by 3 -/
  hdr : s.psub = .hdr → 7 * s.node.length ≤ s.pos
  grp : s.psub = .grp → s.cur + 1 = s.node.length ∧ 7 * s.cur + 3 ≤ s.pos ∧ s.pstk.length ≤ s.cur
  ret : s.psub = .ret → s.cur < s.node.length ∧ 7 * s.node.length ≤ s.pos

/-- What holds during the evaluation phase. -/
structure EvalInv (s : State) : Prop where
  starts : ∀ n ∈ s.node, n.start ≤ s.len
  vals : ∀ n ∈ s.node, NonNeg n.val
  /-- R142 -/
  packets : 7 * s.node.length ≤ s.len
  /-- R140: `EPTR < NCNT` at every FETCH step, `EPTR = NCNT` at the final FOLD step, follow from `due` -/
  eptr_le : s.eptr ≤ s.node.length
  /-- R141 -/
  depth : s.estk.length ≤ s.eptr
  /-- R29 -/
  frames : ∀ f ∈ s.estk, 1 ≤ f.rem ∧ f.rem ≤ 15
  /-- R35: the rest of NODE holds exactly the packets that are due -/
  due : dueAfter (dueEval s.estk + if s.esub = .fetch then 1 else 0) (s.node.drop s.eptr) = some 0
  /-- R110: a negative value occurs only if OVF = 1 -/
  val_nonneg : s.ovf = false → NonNeg s.val
  /-- R110. R29: before the first child is folded in, `acc` means nothing -/
  acc_nonneg : s.ovf = false → ∀ f ∈ s.estk, f.seeded = true → NonNeg f.acc

/-- The invariant of the machine. -/
structure Inv (s : State) : Prop where
  reg : RegInv s
  parse : s.status = .parse → ParseInv s
  eval : s.status = .eval → EvalInv s

/-- R24, R42: what is loaded lies within the capacity. -/
structure WithinCapacity (s : State) : Prop where
  len_le : s.len ≤ Config.maxBits
  bits_lt : ∀ c ∈ s.bits, c.1 < Config.maxBits

/-- A host access that asks for no cell of BITS that does not exist (R42). -/
def CellExists : HostAccess → Prop
  | .writeBit p _ => p < Config.maxBits
  | .writeByte k _ => 8 * k < Config.maxBits
  | .writeReg _ _ | .reset | .engine => True

/-- R18: the transitions of STATUS that a step may make. -/
def statusMayBecome : Status → Status → Bool
  | .idle, .parse => true
  | .parse, .eval => true
  | .parse, .fault => true
  | .eval, .done => true
  | .eval, .fault => true
  | _, .idle => true
  | a, b => a == b

/-- R133, after the accumulator `r` and OVF are known: one child fewer is due. With none left the operator is finished and is
folded into its parent next, else its next child is fetched. -/
def afterFold (s : State) (f : EFrame) (rest : List EFrame) (r : Word) (ovf : Bool) : State :=
  if f.rem = 1 then { s with ovf := ovf, val := r, estk := rest, esub := .fold }
  else { s with ovf := ovf, estk := ⟨f.op, f.rem - 1, r, true⟩ :: rest, esub := .fetch }

/-- R158: `t` is `s` after `raise K(pos)`, in all that the rule says: STATUS, ERR and EPOS written, RESULT, CONSUMED and OVF
cleared, no other host-visible register changed, no node appended. It says nothing of hidden state, which is unspecified. -/
structure FaultsWith (k : FailureKind) (p : Nat) (s t : State) : Prop where
  status : t.status = .fault
  err : t.err = some k
  epos : t.epos = p
  result : t.result = 0
  consumed : t.consumed = 0
  ovf : t.ovf = false
  len : t.len = s.len
  cells : ∀ q, t.bit q = s.bit q
  agenda : t.agenda = s.agenda
  nodes : t.ncnt ≤ s.ncnt

/-- The value of a literal whose groups have the value bits `u` so far, as LVAL and LOV hold it (R125). -/
def HoldsLiteral (s : State) (u : Nat) : Prop :=
  s.lval = BitVec.ofNat 32 u ∧ (s.lov = true ↔ 2 ^ 32 ≤ u)

/-- R156: the starts of the operators of a tree that have no children, in stream order. -/
def emptyStarts (t : Packet) : List Nat :=
  ((flat t).filter (fun n => decide (n.tid ≠ .lit) && decide (n.cnt = 0))).map Node.start

end Sys2Proof.Machine
end

