-- ==== Sys2Proof/Certificates/Slice0/Obligations.lean ====
section
/-!
DEFINITION. The statements for the provers. Each is a Prop over every state or every input it names. A statement whose
conclusion gives the whole next state says by that equation what the step leaves unchanged.
-/

open Sys2Proof Sys2Proof.Machine

section Encoding

/-- R63, R64: headers written out from the type map decode to the packet types they stand for. -/
def Obligations.WrittenOutHeadersDecode : Prop :=
  decode [false, false, false, false, false, true, true] = .ok (.sum 3, []) ∧
  decode [false, false, true, false, false, true, false] = .ok (.product 2, []) ∧
  decode [false, true, false, false, false, false, false] = .ok (.min 0, []) ∧
  decode [false, true, true, true, true, true, true] = .ok (.max 15, []) ∧
  decode [true, false, false, false, false, true, false, true] = .ok (.lit, [false, false, true, false, true]) ∧
  decode [true, false, true] = .ok (.illegal5, []) ∧
  decode [true, true, false] = .ok (.illegal6, []) ∧
  decode [true, true, true] = .ok (.illegal7, []) ∧
  decode [true, true] = .error .typeDoesNotFit ∧
  decode [false, false, false, true, false, true] = .error .countDoesNotFit

/-- R61 to R64: a header, encoded and followed by any bits, decodes to itself, for every value of the count. -/
def Obligations.DecodingAnEncodedHeader : Prop :=
  ∀ (i : Instr) (rest : List Bool), decode (encode i ++ rest) = .ok (i, rest)

/-- R63, R66: a bit string has at most one reading: what the decoder answers is the header that the bits spell. -/
def Obligations.DecodedBitsSpellTheHeader : Prop :=
  ∀ (bs : List Bool) (i : Instr) (rest : List Bool), decode bs = .ok (i, rest) → bs = encode i ++ rest

/-- R71: parsing `Enc(tree)` followed by any trailing bits gives back exactly the tree, and its size is the length of
`Enc(tree)`. -/
def Obligations.ParsingAnEncodedTree : Prop :=
  ∀ (t : Tree) (rest : List Bool), t.wellFormed = true →
    parseRun (t.enc ++ rest) = .ok (t.packetAt 0) ∧ (t.packetAt 0).size = t.enc.length

/-- R43, R71: the hexadecimal rendering of a tree converts to `Enc(tree)` padded on the right with 0 to 3 zero bits to a
multiple of four. -/
def Obligations.HexRenderingConvertsBack : Prop :=
  ∀ t : Tree, ∃ z, z ≤ 3 ∧ (t.enc.length + z) % 4 = 0 ∧
    hexToBits (treeHex t) = .ok (t.enc ++ List.replicate z false)

/-- R43, R44: a conversion gives four bits a character, those at offsets `4k .. 4k+3` being the digit's value. -/
def Obligations.ConverterGivesFourBitsADigit : Prop :=
  ∀ (hex : List Char) (bs : List Bool), hexToBits hex = .ok bs →
    bs.length = 4 * hex.length ∧ ∀ k c, hex[k]? = some c → hexDigit c = some (bitsAt bs (4 * k) 4)

/-- R45: the conversion fails, with InvalidInput, exactly on the empty string and on a string with a character that is none of
the 22. -/
def Obligations.ConverterFailsOnOtherCharacters : Prop :=
  ∀ hex : List Char,
    (hexToBits hex = .error .invalidInput ↔
      hex = [] ∨ ∃ c ∈ hex, c ∉ "0123456789ABCDEFabcdef".toList) ∧
    ∀ k, hexToBits hex = .error k → k = .invalidInput

end Encoding

section Reset

/-- R33, R180: reset is accepted in every state and takes effect at once: every register has its reset value (STATUS = IDLE, all
result registers and LEN 0, internal registers 0 or their first sub-state), the stacks and the node store are empty, and no cell
of BITS is written. So is the state the machine begins in. That an unwritten cell reads a free value, and that a reset is an
entry of the agenda, are the model's own (log entries 2, 3), and that hidden registers take R33's values, where U21 leaves any,
is its choice (log entry 24). -/
def Obligations.ResetValues : Prop :=
  AtReset State.reset ∧
  ∀ s : State, perform .reset s = .next (applyReset s) ∧ AtReset (applyReset s) ∧
    ∀ later, s.agenda = .reset :: later → ∃ t, step s = .next t ∧ AtReset t ∧ t.agenda = later

/-- The state after reset meets the invariant and lies within the capacity. -/
def Obligations.ResetMeetsInvariant : Prop := Inv State.reset ∧ WithinCapacity State.reset

end Reset

section Invariants

/-- Every step keeps the invariant of the machine: the register rules R15, R19 to R22, POS at most LEN, that a negative value
occurs only with OVF = 1 (R110), and that NODE and the stacks are a pre-order tree in progress (R35, R140). The canonical form of
BITS, one clause of the invariant, is the model's own (log entry 19). -/
def Obligations.StepKeepsInvariant : Prop :=
  ∀ s t : State, Inv s → step s = .next t → Inv t

/-- R24, R42: every step keeps LEN and the written cells within MAXBITS, from every state. -/
def Obligations.StepKeepsCapacity : Prop :=
  ∀ s t : State, WithinCapacity s → step s = .next t → WithinCapacity t

/-- R143: no stuck state: from every state that meets the invariant the step answers a next state, unless the host addresses,
in IDLE, a cell of BITS that does not exist. That stop is the model's own choice (log entry 10). -/
def Obligations.InvariantStatesStep : Prop :=
  ∀ s : State, Inv s → (∀ a later, s.agenda = a :: later → s.status = .idle → CellExists a) → ∃ t, step s = .next t

/-- R141, R142: during a run NODE, PSTK and ESTK hold at most NMAX entries, and neither stack is deeper than
`floor(LEN / 7)`. -/
def Obligations.StoresNeverOverflow : Prop :=
  ∀ s : State, Inv s → s.status = .parse ∨ s.status = .eval →
    s.ncnt ≤ (s.len + 4) / 7 ∧ s.psp ≤ s.len / 7 ∧ s.esp ≤ s.len / 7 ∧
    (s.len ≤ Config.maxBits → s.ncnt ≤ Config.nmax ∧ s.psp ≤ Config.nmax ∧ s.esp ≤ Config.nmax)

/-- R140: `EPTR < NCNT` at every FETCH step, and `EPTR = NCNT` at the final FOLD step. -/
def Obligations.FetchFindsANode : Prop :=
  ∀ s : State, Inv s → s.status = .eval →
    (s.esub = .fetch → s.eptr < s.ncnt) ∧ (s.esub = .fold → s.estk = [] → s.eptr = s.ncnt)

/-- R16: no host register reads a value wider than its width. -/
def Obligations.RegisterReadsFitTheirWidth : Prop :=
  ∀ (s : State) (r : HostReg), Inv s → WithinCapacity s → hostRead s r < 2 ^ HostReg.width r

/-- R18: STATUS makes no other transitions than IDLE to PARSE, PARSE to EVAL, PARSE to FAULT, EVAL to DONE, EVAL to FAULT, and
any state to IDLE. -/
def Obligations.StatusTransitions : Prop :=
  ∀ s t : State, step s = .next t → statusMayBecome s.status t.status = true

/-- R159, R189: what the host sees of a finished run stays until CLEAR or reset: in DONE and FAULT no other step changes
it. -/
def Obligations.OutcomeIsHeldUntilClear : Prop :=
  ∀ s t : State, s.status = .done ∨ s.status = .fault → step s = .next t →
    SameView t s ∨ (∃ v later, s.agenda = .writeReg .cmd v :: later ∧ v % 4 = 2) ∨ (∃ later, s.agenda = .reset :: later)

end Invariants

section Step

/-- The header at POS that decodes to `i`, in a HDR step, is executed by `exec i`. A turn given to the engine is taken off the
agenda first: the agenda is the model's own (log entry 3). -/
def Obligations.StepRunsTheHeaderAtPos : Prop :=
  ∀ (s : State) (i : Instr) (rest : List Bool), s.status = .parse → s.psub = .hdr → decode (s.window 7) = .ok (i, rest) →
    (s.agenda = [] → step s = exec i s) ∧
    ∀ later, s.agenda = .engine :: later → step s = exec i { s with agenda := later }

/-- R122: in the other sub-states the step is that of the packet at hand: the literal in GRP, the packet CUR in RET, the packet
EPTR in FETCH, and the operator of the top frame, whatever its count (log entry 6), in FOLD. -/
def Obligations.StepRunsTheStoredPacket : Prop :=
  ∀ s : State, s.agenda = [] →
    (s.status = .parse → s.psub = .grp → step s = exec .lit s) ∧
    (∀ n, s.status = .parse → s.psub = .ret → s.nodeAt s.cur = some n → step s = exec n.instr s) ∧
    (∀ n, s.status = .eval → s.esub = .fetch → s.nodeAt s.eptr = some n → step s = exec n.instr s) ∧
    (∀ f later c, s.status = .eval → s.esub = .fold → s.estk = f :: later → step s = exec (opInstr f.op c) s)

/-- R123, R124: the HDR step, with `t = Bits(POS, 3)` and `c = Bits(POS + 3, 4)`. -/
def Obligations.HeaderStep : Prop :=
  ∀ s : State, s.agenda = [] → s.status = .parse → s.psub = .hdr →
    (s.len - s.pos < 3 → ∃ t, step s = .next t ∧ FaultsWith .outOfBits s.pos s t) ∧
    (3 ≤ s.len - s.pos → 5 ≤ s.field s.pos 3 → ∃ t, step s = .next t ∧ FaultsWith .invalidPacketType s.pos s t) ∧
    (3 ≤ s.len - s.pos → s.field s.pos 3 = 4 →
      step s = .next { s with
        node := s.node ++ [⟨.lit, 0, 0, s.pos, 0⟩], cur := s.ncnt, lval := 0, lov := false,
        pos := s.pos + 3, psub := .grp }) ∧
    (3 ≤ s.len - s.pos → s.len - s.pos < 7 → s.field s.pos 3 ≤ 3 →
      ∃ t, step s = .next t ∧ FaultsWith .outOfBits (s.pos + 3) s t) ∧
    (7 ≤ s.len - s.pos → s.field s.pos 3 ≤ 3 →
      let c := BitVec.ofNat 4 (s.field (s.pos + 3) 4)
      let n : Node := ⟨.op (Op.ofType (s.field s.pos 3)), c, 0, s.pos, 0⟩
      step s = .next (if s.field (s.pos + 3) 4 = 0
        then { s with node := s.node ++ [n], pos := s.pos + 7, cur := s.ncnt, psub := .ret }
        else { s with node := s.node ++ [n], pos := s.pos + 7,
                      pstk := ⟨s.ncnt, s.field (s.pos + 3) 4⟩ :: s.pstk, psub := .hdr }))

/-- R122: in IDLE, DONE and FAULT the engine has no step. That a step of the model then answers the same state, hidden state
with it, is its own reading (log entries 4, 12). -/
def Obligations.NoEngineStepOutsideARun : Prop :=
  ∀ s : State, s.agenda = [] → s.status = .idle ∨ s.status = .done ∨ s.status = .fault → step s = .next s

/-- R132: FOLD with the stack empty ends the run: RESULT and STATUS are written, and no other visible register changes. That
hidden state, which U21 leaves at any value after DONE, stays as it was is the model's choice (log entry 12). -/
def Obligations.EndOfRun : Prop :=
  ∀ s : State, s.agenda = [] → s.status = .eval → s.esub = .fold → s.estk = [] →
    step s = .next { s with result := s.val, status := .done }

/-- R158: the fault entry writes STATUS, ERR and EPOS, clears RESULT, CONSUMED and OVF, changes no other host-visible register
and appends no node. The engine has no further step. R160: `done` is then 1. That NCNT, hidden and unspecified after a fault,
keeps its value is the model's choice (log entry 12). -/
def Obligations.FaultEntry : Prop :=
  ∀ (k : FailureKind) (p : Nat) (s : State),
    let t := raiseFault k p s
    hostRead t .status = 4 ∧ hostRead t .err = FailureKind.code k ∧ hostRead t .epos = p ∧ hostRead t .result = 0 ∧
    hostRead t .consumed = 0 ∧ hostRead t .flags = 0 ∧ t.ovf = false ∧ hostRead t .len = hostRead s .len ∧
    t.ncnt = s.ncnt ∧
    t.doneLine = true ∧ (∀ q, t.bit q = s.bit q) ∧ pending t = .rest

/-- R13: POS only grows, by exactly the bits a step reads: in a HDR step those of the header at POS, 3 for a literal's and 7 for
an operator's, in a GRP step 5, in a RET step none. -/
def Obligations.CursorGrowsByTheBitsRead : Prop :=
  ∀ s t : State, s.agenda = [] → s.status = .parse → step s = .next t → t.status ≠ .fault →
    (s.psub = .hdr → ∃ i rest, decode (s.window 7) = .ok (i, rest) ∧ t.pos = s.pos + i.headerSize ∧
      (i = .lit ∧ i.headerSize = 3 ∨ ∃ o c, i = opInstr o c ∧ i.headerSize = 7)) ∧
    (s.psub = .grp → t.pos = s.pos + 5) ∧
    (s.psub = .ret → t.pos = s.pos)

/-- R15: OVF is set only by a FOLD step into a SUM or PRODUCT, and during a run only a fault clears it. -/
def Obligations.OverflowFlagIsSticky : Prop :=
  ∀ s t : State, s.agenda = [] → step s = .next t → t.status ≠ .fault →
    (s.ovf = true → t.ovf = true) ∧
    (s.ovf = false → t.ovf = true → s.status = .eval ∧ s.esub = .fold ∧
      ∃ f rest, s.estk = f :: rest ∧ f.seeded = true ∧ (f.op = .sum ∨ f.op = .product))

/-- R25, R54: the engine never writes BITS or LEN: over any number of engine steps the bits and their number stay what they
were. -/
def Obligations.EngineNeverWritesTheInput : Prop :=
  ∀ (k : Nat) (s t : State), s.agenda = [] → Sys2Proof.core.run k s = .next t →
    t.bits = s.bits ∧ t.len = s.len ∧ t.agenda = [] ∧ t.powerOn = s.powerOn ∧ t.stream = s.stream

end Step

section Instructions

/-- The frame of every packet type: where its step answers a next state, no cell of BITS, nor LEN, changes. Where the step
raises no fault, ERR, EPOS and RESULT keep their values. A parse step that stays in the parse phase leaves CONSUMED, OVF and the
evaluation registers alone. A RET step that ends the phase may write CONSUMED, EPTR, ESTK, ESUB and STATUS besides NODE. An
evaluation step leaves CONSUMED, STATUS, POS, PSUB, CUR, LVAL, LOV, NODE and PSTK alone. -/
def Obligations.FrameOfEveryPacketType : Prop :=
  ∀ (i : Instr) (s t : State), exec i s = .next t →
    t.len = s.len ∧ t.agenda = s.agenda ∧ t.powerOn = s.powerOn ∧ (∀ p, t.bit p = s.bit p) ∧
    (t.status ≠ .fault → t.err = s.err ∧ t.epos = s.epos ∧ t.result = s.result) ∧
    (t.status = .parse → t.consumed = s.consumed ∧ t.ovf = s.ovf ∧ t.eptr = s.eptr ∧ t.esub = s.esub ∧
      t.val = s.val ∧ t.estk = s.estk) ∧
    (s.status = .parse → t.status = .eval → t.ovf = s.ovf ∧ t.pos = s.pos ∧ t.psub = s.psub ∧ t.cur = s.cur ∧
      t.lval = s.lval ∧ t.lov = s.lov ∧ t.val = s.val ∧ t.pstk = s.pstk) ∧
    (s.status = .eval → t.status ≠ .fault → t.status = .eval ∧ t.consumed = s.consumed ∧ t.pos = s.pos ∧
      t.psub = s.psub ∧ t.cur = s.cur ∧ t.lval = s.lval ∧ t.lov = s.lov ∧ t.node = s.node ∧ t.pstk = s.pstk)

/-- R124: an operator header (SUM, PRODUCT, MIN, MAX) appends its entry and passes 7 bits. Without children the packet is
complete at once, else its frame is pushed and the next header is read. -/
def Obligations.OperatorHeader : Prop :=
  ∀ (o : Op) (c : BitVec 4) (s : State), s.status = .parse → s.psub = .hdr →
    exec (opInstr o c) s = .next (if c = 0
      then { s with node := s.node ++ [⟨.op o, c, 0, s.pos, 0⟩], pos := s.pos + 7, cur := s.ncnt, psub := .ret }
      else { s with node := s.node ++ [⟨.op o, c, 0, s.pos, 0⟩], pos := s.pos + 7,
                    pstk := ⟨s.ncnt, c.toNat⟩ :: s.pstk, psub := .hdr })

/-- R123: a literal header (LIT) appends its entry, clears LVAL and LOV and passes 3 bits. -/
def Obligations.LiteralHeader : Prop :=
  ∀ s : State, s.status = .parse → s.psub = .hdr →
    exec .lit s = .next { s with
      node := s.node ++ [⟨.lit, 0, 0, s.pos, 0⟩], cur := s.ncnt, lval := 0, lov := false, pos := s.pos + 3, psub := .grp }

/-- R87: a packet of type 5, 6 or 7 (ILLEGAL5, ILLEGAL6, ILLEGAL7) raises InvalidPacketType at its boundary, and no node is
created for it. -/
def Obligations.IllegalTypesRaise : Prop :=
  ∀ (i : Instr) (s : State), i = .illegal5 ∨ i = .illegal6 ∨ i = .illegal7 → s.status = .parse → s.psub = .hdr →
    ∃ t, exec i s = .next t ∧ FaultsWith .invalidPacketType s.pos s t

/-- R125: a literal group (LIT) that does not fit below LEN raises OutOfBits at its first bit. -/
def Obligations.GroupThatDoesNotFit : Prop :=
  ∀ s : State, s.status = .parse → s.psub = .grp → s.len - s.pos < 5 →
    ∃ t, exec .lit s = .next t ∧ FaultsWith .outOfBits s.pos s t

/-- R85, R125: a group (LIT) with its continuation flag 1 appends its four value bits: from the value `u` so far, LVAL holds
the low 32 bits of `u * 16 + grp[3:0]`, and LOV is 1 exactly when that is 2^32 or more. -/
def Obligations.GroupWithMoreToFollow : Prop :=
  ∀ (s : State) (u : Nat), s.status = .parse → s.psub = .grp → 5 ≤ s.len - s.pos → HoldsLiteral s u →
    16 ≤ s.field s.pos 5 →
    ∃ t, exec .lit s = .next t ∧ HoldsLiteral t (u * 16 + s.field s.pos 5 % 16) ∧
      t = { s with lval := t.lval, lov := t.lov, pos := s.pos + 5 }

/-- R85, R126: the final group (LIT) of a literal whose exact value is at most INT_MAX stores that value and completes the
packet. -/
def Obligations.FinalGroupStoresTheValue : Prop :=
  ∀ (s : State) (u : Nat) (n : Node), s.status = .parse → s.psub = .grp → 5 ≤ s.len - s.pos → HoldsLiteral s u →
    s.field s.pos 5 < 16 → s.nodeAt s.cur = some n → ((u * 16 + s.field s.pos 5 : Nat) : Int) ≤ intMax →
    exec .lit s = .next { s with
      lval := BitVec.ofNat 32 (u * 16 + s.field s.pos 5), lov := false, pos := s.pos + 5, psub := .ret,
      node := s.node.set s.cur { n with val := BitVec.ofNat 32 (u * 16 + s.field s.pos 5) } }

/-- R85, R126, R157: the final group (LIT) of a literal whose exact value exceeds INT_MAX raises LiteralOverflow at the
literal's own boundary. -/
def Obligations.FinalGroupOverflows : Prop :=
  ∀ (s : State) (u : Nat) (n : Node), s.status = .parse → s.psub = .grp → 5 ≤ s.len - s.pos → HoldsLiteral s u →
    s.field s.pos 5 < 16 → s.nodeAt s.cur = some n → ((u * 16 + s.field s.pos 5 : Nat) : Int) > intMax →
    ∃ t, exec .lit s = .next t ∧ FaultsWith .literalOverflow n.start s t

/-- R127: a RET step (SUM, PRODUCT, MIN, MAX, LIT) records the packet's size and ends the parse phase, returns to the parent,
or goes on to the next sibling. A frame has children left, as the invariant says (R28). That the step is the same for any legal
type and count asked for, since R127 reads only NODE[CUR] and the stack, is the model's reading (log entry 6). -/
def Obligations.ReturnCompletesThePacket : Prop :=
  ∀ (i : Instr) (s : State) (n : Node), i.legal = true → s.status = .parse → s.psub = .ret → s.nodeAt s.cur = some n →
    let nodes := s.node.set s.cur { n with size := s.pos - n.start }
    (s.pstk = [] → exec i s = .next { s with
      node := nodes, consumed := s.pos, eptr := 0, estk := [], esub := .fetch, status := .eval }) ∧
    (∀ f rest, s.pstk = f :: rest → f.rem = 1 → exec i s = .next { s with
      node := nodes, cur := f.node, pstk := rest, psub := .ret }) ∧
    (∀ f rest, s.pstk = f :: rest → 2 ≤ f.rem → exec i s = .next { s with
      node := nodes, pstk := ⟨f.node, f.rem - 1⟩ :: rest, psub := .hdr })

/-- R103, R130: fetching a literal (LIT) takes its value, and OVF is not touched. -/
def Obligations.FetchLiteral : Prop :=
  ∀ (s : State) (n : Node), s.status = .eval → s.esub = .fetch → s.nodeAt s.eptr = some n →
    exec .lit s = .next { s with val := n.val, eptr := s.eptr + 1, esub := .fold }

/-- R131: fetching an operator (SUM, PRODUCT, MIN, MAX) pushes its frame, not yet seeded, or, where it has no children, raises
EmptyOperator at its start. That the pushed frame's `acc` is 0, as R131's text writes it where U22 leaves any value, is the
model's choice (log entry 14). -/
def Obligations.FetchOperator : Prop :=
  ∀ (o : Op) (c : BitVec 4) (s : State) (n : Node), s.status = .eval → s.esub = .fetch → s.nodeAt s.eptr = some n →
    (c = 0 → ∃ t, exec (opInstr o c) s = .next t ∧ FaultsWith .emptyOperator n.start s t) ∧
    (c ≠ 0 → exec (opInstr o c) s = .next { s with
      estk := ⟨o, c.toNat, 0, false⟩ :: s.estk, eptr := s.eptr + 1, esub := .fetch })

/-- R102, R133: the first child's value seeds the accumulator (SUM, PRODUCT, MIN, MAX), and OVF keeps its value. That the count
operand plays no part in a FOLD step is the model's reading (log entry 6). -/
def Obligations.FirstChildSeedsTheAccumulator : Prop :=
  ∀ (o : Op) (c : BitVec 4) (s : State) (f : EFrame) (rest : List EFrame), s.status = .eval → s.esub = .fold →
    s.estk = f :: rest → 1 ≤ f.rem → f.seeded = false →
    exec (opInstr o c) s = .next (afterFold s f rest s.val s.ovf)

/-- R104, R133: SUM folds a further child in: the accumulator becomes the exact sum reduced modulo 2^32 into
`INT_MIN .. INT_MAX`, and OVF is set when the exact sum lies outside. -/
def Obligations.SumFold : Prop :=
  ∀ (c : BitVec 4) (s : State) (f : EFrame) (rest : List EFrame), s.status = .eval → s.esub = .fold →
    s.estk = f :: rest → 1 ≤ f.rem → f.seeded = true →
    ∃ r : Word, r.toInt = wrapInt (f.acc.toInt + s.val.toInt) ∧
      exec (.sum c) s = .next (afterFold s f rest r (s.ovf || outsideRange (f.acc.toInt + s.val.toInt)))

/-- R105, R133: PRODUCT folds a further child in: the accumulator becomes the exact product reduced modulo 2^32 into
`INT_MIN .. INT_MAX`, and OVF is set when the exact product lies outside. -/
def Obligations.ProductFold : Prop :=
  ∀ (c : BitVec 4) (s : State) (f : EFrame) (rest : List EFrame), s.status = .eval → s.esub = .fold →
    s.estk = f :: rest → 1 ≤ f.rem → f.seeded = true →
    ∃ r : Word, r.toInt = wrapInt (f.acc.toInt * s.val.toInt) ∧
      exec (.product c) s = .next (afterFold s f rest r (s.ovf || outsideRange (f.acc.toInt * s.val.toInt)))

/-- R106, R133: MIN keeps the smaller as signed integers, and OVF keeps its value. -/
def Obligations.MinFold : Prop :=
  ∀ (c : BitVec 4) (s : State) (f : EFrame) (rest : List EFrame), s.status = .eval → s.esub = .fold →
    s.estk = f :: rest → 1 ≤ f.rem → f.seeded = true →
    ∃ r : Word, r.toInt = min f.acc.toInt s.val.toInt ∧ exec (.min c) s = .next (afterFold s f rest r s.ovf)

/-- R107, R133: MAX keeps the larger as signed integers, and OVF keeps its value. -/
def Obligations.MaxFold : Prop :=
  ∀ (c : BitVec 4) (s : State) (f : EFrame) (rest : List EFrame), s.status = .eval → s.esub = .fold →
    s.estk = f :: rest → 1 ≤ f.rem → f.seeded = true →
    ∃ r : Word, r.toInt = max f.acc.toInt s.val.toInt ∧ exec (.max c) s = .next (afterFold s f rest r s.ovf)

/-- R109: `wrap_W(e)` lies in `INT_MIN .. INT_MAX`, is congruent to `e` modulo 2^32, and differs from `e` exactly when `e` is
outside the range. -/
def Obligations.WrapLaw : Prop :=
  ∀ e : Int, intMin ≤ wrapInt e ∧ wrapInt e ≤ intMax ∧ (2 ^ 32 : Int) ∣ (e - wrapInt e) ∧
    (outsideRange e = true ↔ wrapInt e ≠ e) ∧ (wrapWord e).toInt = wrapInt e

end Instructions

section Host

/-- The model's own scheduling (log entry 3): a step takes the oldest entry of the agenda and performs it, an entry `engine`
being a turn of the engine. -/
def Obligations.StepTakesTheOldestAccess : Prop :=
  ∀ (s : State) (a : HostAccess) (later : List HostAccess), s.agenda = a :: later →
    step s = if a = .engine then engineStep { s with agenda := later } else perform a { s with agenda := later }

/-- R120: START (write of 1 to CMD) is performed only when STATUS = IDLE, and leaves BITS and LEN as they are. -/
def Obligations.StartCommand : Prop :=
  ∀ s : State, perform (.writeReg .cmd 1) s = .next (if s.status = .idle
    then { s with
      pos := 0, node := [], pstk := [], estk := [], eptr := 0, psub := .hdr, esub := .fetch, cur := 0,
      lval := 0, lov := false, val := 0, err := none, epos := 0, result := 0, consumed := 0, ovf := false,
      status := .parse }
    else s)

/-- R121: CLEAR (write of 2 to CMD), in every state, gives every register that START initialises the same value, but
STATUS = IDLE, and leaves BITS and LEN as they are. In IDLE, where the invariant holds, it changes nothing visible. That hidden
registers take R121's values, where U21 leaves any, is the model's choice (log entry 24). -/
def Obligations.ClearCommand : Prop :=
  ∀ s : State,
    let t := { s with
      pos := 0, node := [], pstk := [], estk := [], eptr := 0, psub := .hdr, esub := .fetch, cur := 0,
      lval := 0, lov := false, val := 0, err := none, epos := 0, result := 0, consumed := 0, ovf := false,
      status := .idle }
    perform (.writeReg .cmd 2) s = .next t ∧ (Inv s → s.status = .idle → SameView t s)

/-- R17, R24: a write of 0 or 3 to CMD does nothing and CMD reads 0. A write of LEN is performed only when STATUS = IDLE and
the value is at most MAXBITS, the value written being compared whole (the model's reading, log entry 8).
R16: a write to a register that is read only changes nothing, and of a value written to CMD only the low two bits count (the
model's readings, log entry 9). All this holds in every STATUS. -/
def Obligations.OtherRegisterWrites : Prop :=
  ∀ s : State,
    perform (.writeReg .cmd 0) s = .next s ∧ perform (.writeReg .cmd 3) s = .next s ∧ hostRead s .cmd = 0 ∧
    ∀ v, perform (.writeReg .len v) s =
      .next (if s.status = .idle ∧ v ≤ Config.maxBits then { s with len := v } else s) ∧
    perform (.writeReg .cmd v) s = perform (.writeReg .cmd (v % 4)) s ∧
    ∀ r, r ≠ .cmd → r ≠ .len → perform (.writeReg r v) s = .next s

/-- R25, R54: a host write of a cell of BITS is dropped outside IDLE. In IDLE the cell then reads as the bit written and every
other cell as before. Where there is no such cell (R42) the model stops, its own choice (log entry 10). -/
def Obligations.WriteOfACell : Prop :=
  ∀ (s : State) (p : Nat) (b : Bool),
    (s.status ≠ .idle → perform (.writeBit p b) s = .next s) ∧
    (s.status = .idle → if p < Config.maxBits
      then ∃ t, perform (.writeBit p b) s = .next t ∧ t = { s with bits := t.bits } ∧ hostReadBit t p = some b ∧
        ∀ q, q ≠ p → t.bit q = s.bit q
      else perform (.writeBit p b) s = .fault .noCell)

/-- R46: a host write of byte `k` of the load window, in IDLE, sets the cells `8k .. 8k+7`, the first from the byte's most
significant bit, and no other. That cells at MAXBITS or above are not written, and the stop where there is none, are the model's
own choices (log entries 10, 11). -/
def Obligations.WriteOfAByte : Prop :=
  ∀ (s : State) (k : Nat) (v : BitVec 8),
    (s.status ≠ .idle → perform (.writeByte k v) s = .next s) ∧
    (s.status = .idle → if 8 * k < Config.maxBits
      then ∃ t, perform (.writeByte k v) s = .next t ∧ t = { s with bits := t.bits } ∧
        (∀ j, j < 8 → 8 * k + j < Config.maxBits → t.bit (8 * k + j) = v.getMsbD j) ∧
        (∀ q, q < 8 * k ∨ 8 * k + 8 ≤ q ∨ Config.maxBits ≤ q → t.bit q = s.bit q) ∧
        (8 * k + 8 ≤ Config.maxBits → hostReadByte t k = v)
      else perform (.writeByte k v) s = .fault .noCell)

/-- R16 to R24, R150: the number of each of the eight registers and what the host reads from it. R187, R190: before DONE, FLAGS
reads 0, and during a run, where the invariant holds, so do RESULT, ERR and EPOS, and CONSUMED until the parse phase ends. That
FLAGS reads 0 while a fold step has already set OVF is the model's reading of R187 beside R23 (log entry 22). -/
def Obligations.RegisterReads : Prop :=
  ∀ s : State,
    (hostRead s .status = 0 ↔ s.status = .idle) ∧ (hostRead s .status = 1 ↔ s.status = .parse) ∧
    (hostRead s .status = 2 ↔ s.status = .eval) ∧ (hostRead s .status = 3 ↔ s.status = .done) ∧
    (hostRead s .status = 4 ↔ s.status = .fault) ∧
    (hostRead s .err = 0 ↔ s.err = none) ∧ (hostRead s .err = 2 ↔ s.err = some .invalidPacketType) ∧
    (hostRead s .err = 3 ↔ s.err = some .outOfBits) ∧ (hostRead s .err = 4 ↔ s.err = some .emptyOperator) ∧
    (hostRead s .err = 5 ↔ s.err = some .literalOverflow) ∧
    hostRead s .cmd = 0 ∧ hostRead s .epos = s.epos ∧ hostRead s .result = s.result.toNat ∧
    hostRead s .consumed = s.consumed ∧ hostRead s .len = s.len ∧
    (hostRead s .flags = 1 ↔ s.status = .done ∧ s.ovf = true) ∧ (s.status ≠ .done → hostRead s .flags = 0) ∧
    (Inv s → s.status = .parse ∨ s.status = .eval →
      hostRead s .result = 0 ∧ hostRead s .err = 0 ∧ hostRead s .epos = 0 ∧
      (s.status = .parse → hostRead s .consumed = 0)) ∧
    (s.doneLine = true ↔ s.status = .done ∨ s.status = .fault) ∧
    [HostReg.cmd, .status, .err, .epos, .result, .consumed, .flags, .len].map HostReg.number = [0, 1, 2, 3, 4, 5, 6, 7]

end Host

section Functional

/-- R34, R68, R88: every packet that a parse returns begins at the boundary asked for, lies below LEN, meets the tree invariants
(`size = 7 + Σ` of the children's sizes, `3 + 5g` for a literal, children back to back), and its size is
`3*N_L + 7*N_O + 5*G`, at least 7 bits a packet. -/
def Obligations.LengthProperty : Prop :=
  ∀ (depth : Nat) (bs : List Bool) (p : Nat) (t : Packet), parsePacket depth bs p = .ok t →
    packetWf t = true ∧ t.start = p ∧ p + t.size ≤ bs.length ∧
    t.size = 3 * literalCount t + 7 * (packetCount t - literalCount t) + 5 * groupCount t ∧
    7 * packetCount t ≤ t.size

/-- R50, U7: the bits after the outermost packet may be anything and influence nothing. -/
def Obligations.TrailingBitsAreIgnored : Prop :=
  ∀ (bs rest : List Bool) (t : Packet), parseRun bs = .ok t → parseRun (bs.take t.size ++ rest) = .ok t

/-- R110: without overflow the value is that of the tree over the unbounded integers and is at least 0, and with or without
it the value lies in `INT_MIN .. INT_MAX`. -/
def Obligations.NoOverflowMeansExact : Prop :=
  ∀ (t : Packet) (v : Int) (ovf : Bool), packetWf t = true → evaluate t = .ok (v, ovf) →
    intMin ≤ v ∧ v ≤ intMax ∧ (ovf = false → exactValue t = some v ∧ 0 ≤ v)

/-- R156: EmptyOperator is the outcome exactly when the parse completes and the tree has an operator without children, and the
position is the lowest start among such operators. -/
def Obligations.EmptyOperatorIsTheFirst : Prop :=
  ∀ (bs : List Bool) (p : Nat), verdictOf bs = .failed .emptyOperator p ↔
    ∃ t, parseRun bs = .ok t ∧ p ∈ emptyStarts t ∧ ∀ q ∈ emptyStarts t, p ≤ q

/-- R22, R150, R151: a run that ends without fault has `8 <= CONSUMED <= LEN`. A run that ends with a fault reports a position
at most LEN and never InvalidInput, and in every OutOfBits case `LEN - 4 <= EPOS`. -/
def Obligations.OutcomeBounds : Prop :=
  ∀ bs : List Bool,
    (∀ v c ovf, verdictOf bs = .done v c ovf → 8 ≤ c ∧ c ≤ bs.length) ∧
    (∀ k p, verdictOf bs = .failed k p →
      k ≠ .invalidInput ∧ p ≤ bs.length ∧ (k = .outOfBits → bs.length ≤ p + 4))

end Functional

section Runs

/-- R140: a run begun by START from IDLE reaches, after finitely many engine steps, DONE or FAULT with exactly the outcome of
the functional view on `BITS[0 .. LEN-1]`. -/
def Obligations.RunAgreesWithTheFunctionalView : Prop :=
  ∀ s : State, s.status = .idle → s.agenda = [] →
    ∃ k t, Sys2Proof.core.run k (commandStart s) = .next t ∧ t.verdict = some (verdictOf s.stream)

/-- R35, R140: where the parse of the functional view gives the tree `T`, the step that enters EVAL leaves
`NODE[0 .. NCNT-1] = flat(T)`, CONSUMED its size and EPTR 0. -/
def Obligations.NodeStoreHoldsTheTree : Prop :=
  ∀ (s : State) (tree : Packet), s.status = .idle → s.agenda = [] → parseRun s.stream = .ok tree →
    ∃ k u t, Sys2Proof.core.run k (commandStart s) = .next u ∧ u.status = .parse ∧ step u = .next t ∧
      t.status = .eval ∧ t.node = flat tree ∧ t.consumed = tree.size ∧ t.eptr = 0

/-- R143: a fault-free run with `N` packets and `G` literal groups takes exactly `4N + G` engine steps. -/
def Obligations.StepsOfAFaultFreeRun : Prop :=
  ∀ (s : State) (tree : Packet) (v : Int) (ovf : Bool), s.status = .idle → s.agenda = [] →
    parseRun s.stream = .ok tree → evaluate tree = .ok (v, ovf) →
    (∃ t, Sys2Proof.core.run (4 * packetCount tree + groupCount tree) (commandStart s) = .next t ∧ t.status = .done) ∧
    ∀ k t, k < 4 * packetCount tree + groupCount tree → Sys2Proof.core.run k (commandStart s) = .next t →
      t.status = .parse ∨ t.status = .eval

/-- R31, R47, R91: what the host sees of a run depends on `BITS[0 .. LEN-1]` alone: two states in IDLE with the same stream,
whatever their hidden state, their cells at LEN or above and their earlier runs, show the same registers after the same number of
steps. -/
def Obligations.RunsDependOnTheStreamAlone : Prop :=
  ∀ (s s' : State) (k : Nat) (t : State), s.status = .idle → s'.status = .idle → s.agenda = [] → s'.agenda = [] →
    s.stream = s'.stream → Sys2Proof.core.run k (commandStart s) = .next t →
    ∃ t', Sys2Proof.core.run k (commandStart s') = .next t' ∧ t'.status = t.status ∧ t'.err = t.err ∧ t'.epos = t.epos ∧
      t'.result = t.result ∧ t'.consumed = t.consumed ∧ t'.ovf = t.ovf ∧ t'.len = t.len

/-- R186, R188: the host's sequence CLEAR, load, LEN, START, from any state, runs the block on the string loaded, and the block
ends in its outcome. That the sequence stands in the agenda is the model's own form (log entry 3). -/
def Obligations.HostSequenceDecodes : Prop :=
  ∀ (s : State) (bs : List Bool), bs.length ≤ Config.maxBits → s.agenda = hostSequence bs →
    ∃ k t, Sys2Proof.core.run k s = .next t ∧ t.verdict = some (verdictOf bs) ∧ t.stream = bs

end Runs
end

