-- ==== Sys2Proof/Laws/Memory.lean ====
section
/-!
SUPPORT. The laws of BITS: a read after a write, and that every operation keeps the canonical form.
-/
namespace Sys2Proof.Machine

open Sys2Proof

@[simp] theorem readCell_writeCell_same (m : List (Nat × Bool)) (p : Nat) (b : Bool) :
    readCell (writeCell m p b) p = some b := by
  induction m with
  | nil => simp [writeCell, readCell]
  | cons c rest ih =>
    obtain ⟨a, v⟩ := c
    by_cases h1 : p < a
    · simp [writeCell, h1, readCell]
    · by_cases h2 : p = a
      · simp [writeCell, h2, readCell]
      · simpa [writeCell, h1, h2, readCell, Ne.symm h2] using ih

theorem readCell_writeCell_other (m : List (Nat × Bool)) {p q : Nat} (b : Bool) (h : q ≠ p) :
    readCell (writeCell m p b) q = readCell m q := by
  induction m with
  | nil => simp [writeCell, readCell, h.symm]
  | cons c rest ih =>
    obtain ⟨a, v⟩ := c
    by_cases h1 : p < a
    · simp [writeCell, h1, readCell, h.symm]
    · by_cases h2 : p = a
      · simp [writeCell, h2, readCell, h2 ▸ h.symm]
      · simp [writeCell, h1, h2, readCell, ih]

theorem cellsAbove_writeCell {a p : Nat} (m : List (Nat × Bool)) (b : Bool) (h : cellsAbove a m = true) (hp : a < p) :
    cellsAbove a (writeCell m p b) = true := by
  induction m with
  | nil => simp [writeCell, cellsAbove, hp]
  | cons c rest ih =>
    obtain ⟨k, v⟩ := c
    simp only [cellsAbove, List.all_cons, Bool.and_eq_true, decide_eq_true_eq] at h ih ⊢
    unfold writeCell
    split
    · simp [hp, h]
    · split
      · simp [hp, h]
      · simpa [h.1] using ih h.2

theorem cellsAbove_mono {a p : Nat} (m : List (Nat × Bool)) (h : cellsAbove a m = true) (hp : p ≤ a) :
    cellsAbove p m = true := by
  simp only [cellsAbove, List.all_eq_true, decide_eq_true_eq] at h ⊢
  exact fun c hc => lt_of_le_of_lt hp (h c hc)

/-- Writing a cell keeps the canonical form. -/
theorem wf_writeCell (m : List (Nat × Bool)) (p : Nat) (b : Bool) (h : Memory.wf m = true) :
    Memory.wf (writeCell m p b) = true := by
  induction m with
  | nil => simp [writeCell, Memory.wf, cellsAbove]
  | cons c rest ih =>
    obtain ⟨a, v⟩ := c
    obtain ⟨ha, hr⟩ : cellsAbove a rest = true ∧ Memory.wf rest = true := by simpa [Memory.wf] using h
    by_cases h1 : p < a
    · have hp : cellsAbove p rest = true := cellsAbove_mono rest ha h1.le
      simp only [cellsAbove] at hp ha
      simp [writeCell, h1, Memory.wf, ha, hr, cellsAbove, hp]
    · by_cases h2 : p = a
      · subst h2
        simp [writeCell, Memory.wf, ha, hr]
      · have hlt : a < p := by omega
        simp [writeCell, h1, h2, Memory.wf, ih hr, cellsAbove_writeCell rest b ha hlt]

theorem mem_writeCell {m : List (Nat × Bool)} {p : Nat} {b : Bool} {c : Nat × Bool} (h : c ∈ writeCell m p b) :
    c = (p, b) ∨ c ∈ m := by
  induction m with
  | nil => simpa [writeCell] using h
  | cons d rest ih =>
    obtain ⟨a, v⟩ := d
    by_cases h1 : p < a
    · simpa [writeCell, h1] using h
    · by_cases h2 : p = a
      · subst h2
        simp only [writeCell, lt_irrefl, if_false, if_true, List.mem_cons] at h
        rcases h with h | h
        · exact .inl h
        · exact .inr (List.mem_cons_of_mem _ h)
      · simp only [writeCell, h1, h2, if_false, List.mem_cons] at h
        rcases h with h | h
        · exact .inr (by simp [h])
        · rcases ih h with h | h
          · exact .inl h
          · exact .inr (List.mem_cons_of_mem _ h)

/-- A property that every single cell write keeps, a byte write keeps. -/
theorem writeByteCells_induction {P : List (Nat × Bool) → Prop} (k : Nat) (v : BitVec 8) (m : List (Nat × Bool))
    (hm : P m) (hw : ∀ m j b, P m → 8 * k + j < Config.maxBits → P (writeCell m (8 * k + j) b)) :
    P (writeByteCells k v m) := by
  unfold writeByteCells
  generalize List.range 8 = js
  induction js generalizing m with
  | nil => exact hm
  | cons j js ih =>
    refine ih _ ?_
    dsimp only
    split
    · exact hw _ _ _ hm ‹_›
    · exact hm

/-- Writing a byte keeps the canonical form. -/
theorem wf_writeByteCells (k : Nat) (v : BitVec 8) (m : List (Nat × Bool)) (h : Memory.wf m = true) :
    Memory.wf (writeByteCells k v m) = true :=
  writeByteCells_induction (P := fun m => Memory.wf m = true) k v m h (fun m _ b hm _ => wf_writeCell m _ b hm)

/-- The memory of the reset state is in canonical form. -/
theorem wf_reset : Memory.wf State.reset.bits = true := rfl

end Sys2Proof.Machine
end

