-- ==== Sys2Proof/Laws/PerInstr.lean ====
section
/-!
SUPPORT. Statements for all instructions, one lemma per constructor: the encoding has as many bits as the header.
-/
namespace Sys2Proof.Laws.HeaderSize

open Sys2Proof

/-- R61, R62, R63: the header of a packet type is 7 bits for an operator, 3 otherwise, and that is the encoding's length. -/
def Statement (i : Instr) : Prop := (encode i).length = i.headerSize

theorem sum (c : BitVec 4) : Statement (.sum c) := rfl
theorem product (c : BitVec 4) : Statement (.product c) := rfl
theorem min (c : BitVec 4) : Statement (.min c) := rfl
theorem max (c : BitVec 4) : Statement (.max c) := rfl
theorem lit : Statement .lit := rfl
theorem illegal5 : Statement .illegal5 := rfl
theorem illegal6 : Statement .illegal6 := rfl
theorem illegal7 : Statement .illegal7 := rfl

end Sys2Proof.Laws.HeaderSize
end

