-- ==== Sys2Proof/Laws/State.lean ====
section
/-! SUPPORT. One lemma per field per named update, each true by unfolding. -/
namespace Sys2Proof.Machine

open Sys2Proof

section RaiseFault

variable (k : FailureKind) (p : Nat) (s : State)

@[simp] theorem raiseFault_status : (raiseFault k p s).status = .fault := rfl
@[simp] theorem raiseFault_err : (raiseFault k p s).err = some k := rfl
@[simp] theorem raiseFault_epos : (raiseFault k p s).epos = p := rfl
@[simp] theorem raiseFault_result : (raiseFault k p s).result = 0 := rfl
@[simp] theorem raiseFault_consumed : (raiseFault k p s).consumed = 0 := rfl
@[simp] theorem raiseFault_ovf : (raiseFault k p s).ovf = false := rfl
@[simp] theorem raiseFault_len : (raiseFault k p s).len = s.len := rfl
@[simp] theorem raiseFault_bits : (raiseFault k p s).bits = s.bits := rfl
@[simp] theorem raiseFault_pos : (raiseFault k p s).pos = s.pos := rfl
@[simp] theorem raiseFault_eptr : (raiseFault k p s).eptr = s.eptr := rfl
@[simp] theorem raiseFault_psub : (raiseFault k p s).psub = s.psub := rfl
@[simp] theorem raiseFault_esub : (raiseFault k p s).esub = s.esub := rfl
@[simp] theorem raiseFault_cur : (raiseFault k p s).cur = s.cur := rfl
@[simp] theorem raiseFault_lval : (raiseFault k p s).lval = s.lval := rfl
@[simp] theorem raiseFault_lov : (raiseFault k p s).lov = s.lov := rfl
@[simp] theorem raiseFault_val : (raiseFault k p s).val = s.val := rfl
@[simp] theorem raiseFault_node : (raiseFault k p s).node = s.node := rfl
@[simp] theorem raiseFault_pstk : (raiseFault k p s).pstk = s.pstk := rfl
@[simp] theorem raiseFault_estk : (raiseFault k p s).estk = s.estk := rfl
@[simp] theorem raiseFault_agenda : (raiseFault k p s).agenda = s.agenda := rfl
@[simp] theorem raiseFault_powerOn : (raiseFault k p s).powerOn = s.powerOn := rfl

end RaiseFault

section InitRun

variable (st : Status) (s : State)

@[simp] theorem initRun_status : (initRun st s).status = st := rfl
@[simp] theorem initRun_err : (initRun st s).err = none := rfl
@[simp] theorem initRun_epos : (initRun st s).epos = 0 := rfl
@[simp] theorem initRun_result : (initRun st s).result = 0 := rfl
@[simp] theorem initRun_consumed : (initRun st s).consumed = 0 := rfl
@[simp] theorem initRun_ovf : (initRun st s).ovf = false := rfl
@[simp] theorem initRun_len : (initRun st s).len = s.len := rfl
@[simp] theorem initRun_bits : (initRun st s).bits = s.bits := rfl
@[simp] theorem initRun_pos : (initRun st s).pos = 0 := rfl
@[simp] theorem initRun_eptr : (initRun st s).eptr = 0 := rfl
@[simp] theorem initRun_psub : (initRun st s).psub = .hdr := rfl
@[simp] theorem initRun_esub : (initRun st s).esub = .fetch := rfl
@[simp] theorem initRun_cur : (initRun st s).cur = 0 := rfl
@[simp] theorem initRun_lval : (initRun st s).lval = 0 := rfl
@[simp] theorem initRun_lov : (initRun st s).lov = false := rfl
@[simp] theorem initRun_val : (initRun st s).val = 0 := rfl
@[simp] theorem initRun_node : (initRun st s).node = [] := rfl
@[simp] theorem initRun_pstk : (initRun st s).pstk = [] := rfl
@[simp] theorem initRun_estk : (initRun st s).estk = [] := rfl
@[simp] theorem initRun_agenda : (initRun st s).agenda = s.agenda := rfl
@[simp] theorem initRun_powerOn : (initRun st s).powerOn = s.powerOn := rfl

end InitRun

section AppendNode

variable (n : Node) (s : State)

@[simp] theorem appendNode_status : (appendNode n s).status = s.status := rfl
@[simp] theorem appendNode_err : (appendNode n s).err = s.err := rfl
@[simp] theorem appendNode_epos : (appendNode n s).epos = s.epos := rfl
@[simp] theorem appendNode_result : (appendNode n s).result = s.result := rfl
@[simp] theorem appendNode_consumed : (appendNode n s).consumed = s.consumed := rfl
@[simp] theorem appendNode_ovf : (appendNode n s).ovf = s.ovf := rfl
@[simp] theorem appendNode_len : (appendNode n s).len = s.len := rfl
@[simp] theorem appendNode_bits : (appendNode n s).bits = s.bits := rfl
@[simp] theorem appendNode_pos : (appendNode n s).pos = s.pos := rfl
@[simp] theorem appendNode_eptr : (appendNode n s).eptr = s.eptr := rfl
@[simp] theorem appendNode_psub : (appendNode n s).psub = s.psub := rfl
@[simp] theorem appendNode_esub : (appendNode n s).esub = s.esub := rfl
@[simp] theorem appendNode_cur : (appendNode n s).cur = s.cur := rfl
@[simp] theorem appendNode_lval : (appendNode n s).lval = s.lval := rfl
@[simp] theorem appendNode_lov : (appendNode n s).lov = s.lov := rfl
@[simp] theorem appendNode_val : (appendNode n s).val = s.val := rfl
@[simp] theorem appendNode_node : (appendNode n s).node = s.node ++ [n] := rfl
@[simp] theorem appendNode_pstk : (appendNode n s).pstk = s.pstk := rfl
@[simp] theorem appendNode_estk : (appendNode n s).estk = s.estk := rfl
@[simp] theorem appendNode_agenda : (appendNode n s).agenda = s.agenda := rfl
@[simp] theorem appendNode_powerOn : (appendNode n s).powerOn = s.powerOn := rfl

end AppendNode

section SetNode

variable (i : Nat) (n : Node) (s : State)

@[simp] theorem setNode_status : (setNode i n s).status = s.status := rfl
@[simp] theorem setNode_err : (setNode i n s).err = s.err := rfl
@[simp] theorem setNode_epos : (setNode i n s).epos = s.epos := rfl
@[simp] theorem setNode_result : (setNode i n s).result = s.result := rfl
@[simp] theorem setNode_consumed : (setNode i n s).consumed = s.consumed := rfl
@[simp] theorem setNode_ovf : (setNode i n s).ovf = s.ovf := rfl
@[simp] theorem setNode_len : (setNode i n s).len = s.len := rfl
@[simp] theorem setNode_bits : (setNode i n s).bits = s.bits := rfl
@[simp] theorem setNode_pos : (setNode i n s).pos = s.pos := rfl
@[simp] theorem setNode_eptr : (setNode i n s).eptr = s.eptr := rfl
@[simp] theorem setNode_psub : (setNode i n s).psub = s.psub := rfl
@[simp] theorem setNode_esub : (setNode i n s).esub = s.esub := rfl
@[simp] theorem setNode_cur : (setNode i n s).cur = s.cur := rfl
@[simp] theorem setNode_lval : (setNode i n s).lval = s.lval := rfl
@[simp] theorem setNode_lov : (setNode i n s).lov = s.lov := rfl
@[simp] theorem setNode_val : (setNode i n s).val = s.val := rfl
@[simp] theorem setNode_node : (setNode i n s).node = s.node.set i n := rfl
@[simp] theorem setNode_pstk : (setNode i n s).pstk = s.pstk := rfl
@[simp] theorem setNode_estk : (setNode i n s).estk = s.estk := rfl
@[simp] theorem setNode_agenda : (setNode i n s).agenda = s.agenda := rfl
@[simp] theorem setNode_powerOn : (setNode i n s).powerOn = s.powerOn := rfl

end SetNode

section FinishRun

variable (s : State)

@[simp] theorem finishRun_status : (finishRun s).status = .done := rfl
@[simp] theorem finishRun_err : (finishRun s).err = s.err := rfl
@[simp] theorem finishRun_epos : (finishRun s).epos = s.epos := rfl
@[simp] theorem finishRun_result : (finishRun s).result = s.val := rfl
@[simp] theorem finishRun_consumed : (finishRun s).consumed = s.consumed := rfl
@[simp] theorem finishRun_ovf : (finishRun s).ovf = s.ovf := rfl
@[simp] theorem finishRun_len : (finishRun s).len = s.len := rfl
@[simp] theorem finishRun_bits : (finishRun s).bits = s.bits := rfl
@[simp] theorem finishRun_pos : (finishRun s).pos = s.pos := rfl
@[simp] theorem finishRun_eptr : (finishRun s).eptr = s.eptr := rfl
@[simp] theorem finishRun_psub : (finishRun s).psub = s.psub := rfl
@[simp] theorem finishRun_esub : (finishRun s).esub = s.esub := rfl
@[simp] theorem finishRun_cur : (finishRun s).cur = s.cur := rfl
@[simp] theorem finishRun_lval : (finishRun s).lval = s.lval := rfl
@[simp] theorem finishRun_lov : (finishRun s).lov = s.lov := rfl
@[simp] theorem finishRun_val : (finishRun s).val = s.val := rfl
@[simp] theorem finishRun_node : (finishRun s).node = s.node := rfl
@[simp] theorem finishRun_pstk : (finishRun s).pstk = s.pstk := rfl
@[simp] theorem finishRun_estk : (finishRun s).estk = s.estk := rfl
@[simp] theorem finishRun_agenda : (finishRun s).agenda = s.agenda := rfl
@[simp] theorem finishRun_powerOn : (finishRun s).powerOn = s.powerOn := rfl

end FinishRun

end Sys2Proof.Machine
end

