-- ==== Sys2Proof/Laws/Sequencer.lean ====
section
/-!
SUPPORT. What each shared operation can do, said once: if it answers a next state, then one of these cases holds.
-/
namespace Sys2Proof.Machine

open Sys2Proof

variable {s t : State}

/-- R124: an operator header either completes at once or descends. -/
theorem headerOperator_cases (o : Op) (c : BitVec 4) (s : State) :
    (c = 0 ∧ headerOperator o c s =
      { s with node := s.node ++ [⟨.op o, c, 0, s.pos, 0⟩], pos := s.pos + 7, cur := s.node.length, psub := .ret }) ∨
    (c ≠ 0 ∧ headerOperator o c s =
      { s with node := s.node ++ [⟨.op o, c, 0, s.pos, 0⟩], pos := s.pos + 7,
               pstk := ⟨s.node.length, c.toNat⟩ :: s.pstk, psub := .hdr }) := by
  by_cases h : c = 0
  · exact .inl ⟨h, if_pos h⟩
  · exact .inr ⟨h, if_neg h⟩

/-- R126: the final group overflows or completes the literal. -/
theorem finishLiteral_cases (h : finishLiteral s = .next t) :
    ∃ n, s.node[s.cur]? = some n ∧
      ((literalOverflows s.lov s.lval = true ∧ t = raiseFault .literalOverflow n.start s) ∨
       (literalOverflows s.lov s.lval = false ∧
          t = { s with node := s.node.set s.cur { n with val := s.lval }, psub := .ret })) := by
  unfold finishLiteral State.nodeAt at h
  split at h
  · cases h
  · rename_i n hn
    refine ⟨n, hn, ?_⟩
    split at h <;> rename_i hl <;> cases h
    · exact .inl ⟨hl, rfl⟩
    · exact .inr ⟨by simpa using hl, rfl⟩

/-- R125: a group does not fit, or is read, and is the last or not. -/
theorem groupStep_cases (h : groupStep s = .next t) :
    (s.group = none ∧ t = raiseFault .outOfBits s.pos s) ∨
    ∃ g, s.group = some g ∧
      ((g.more = true ∧ t = { s with
          lov := lovAfter s.lov s.lval, lval := shiftInNibble s.lval g.nibble, pos := s.pos + 5, psub := .grp }) ∨
       (g.more = false ∧ finishLiteral { s with
          lov := lovAfter s.lov s.lval, lval := shiftInNibble s.lval g.nibble, pos := s.pos + 5, psub := .grp } =
            .next t)) := by
  unfold groupStep at h
  split at h <;> rename_i hg
  · exact .inl ⟨hg, by cases h; rfl⟩
  · refine .inr ⟨_, hg, ?_⟩
    simp only at h
    split at h <;> rename_i hm
    · exact .inl ⟨hm, by cases h; rfl⟩
    · exact .inr ⟨by simpa using hm, h⟩

/-- R127: the parse phase ends, the parent completes next, or the next sibling begins. -/
theorem returnStep_cases (h : returnStep s = .next t) :
    ∃ n, s.node[s.cur]? = some n ∧
      ((s.pstk = [] ∧ t = { s with
          node := s.node.set s.cur { n with size := s.pos - n.start },
          consumed := s.pos, eptr := 0, estk := [], esub := .fetch, status := .eval }) ∨
       ∃ f rest, s.pstk = f :: rest ∧
        ((f.rem - 1 = 0 ∧ t = { s with
            node := s.node.set s.cur { n with size := s.pos - n.start }, cur := f.node, pstk := rest, psub := .ret }) ∨
         (f.rem - 1 ≠ 0 ∧ t = { s with
            node := s.node.set s.cur { n with size := s.pos - n.start },
            pstk := { f with rem := f.rem - 1 } :: rest, psub := .hdr }))) := by
  unfold returnStep State.nodeAt at h
  split at h
  · cases h
  · rename_i n hn
    refine ⟨n, hn, ?_⟩
    simp only at h
    split at h
    · rename_i hp
      cases h
      exact .inl ⟨hp, rfl⟩
    · rename_i f rest hp
      split at h <;> rename_i hr <;> cases h
      · exact .inr ⟨f, rest, hp, .inl ⟨hr, rfl⟩⟩
      · exact .inr ⟨f, rest, hp, .inr ⟨hr, rfl⟩⟩

/-- R130: a literal's value is fetched. -/
theorem fetchLiteral_cases (h : fetchLiteral s = .next t) :
    ∃ n, s.node[s.eptr]? = some n ∧ t = { s with val := n.val, eptr := s.eptr + 1, esub := .fold } := by
  unfold fetchLiteral State.nodeAt at h
  split at h
  · cases h
  · rename_i n hn
    cases h
    exact ⟨n, hn, rfl⟩

/-- R131: an operator without children raises, another is pushed. -/
theorem fetchOperator_cases {o : Op} {c : BitVec 4} (h : fetchOperator o c s = .next t) :
    ∃ n, s.node[s.eptr]? = some n ∧
      ((c = 0 ∧ t = raiseFault .emptyOperator n.start s) ∨
       (c ≠ 0 ∧ t = { s with
          estk := ⟨o, c.toNat, 0, false⟩ :: s.estk, eptr := s.eptr + 1, esub := .fetch })) := by
  unfold fetchOperator State.nodeAt at h
  split at h
  · cases h
  · rename_i n hn
    refine ⟨n, hn, ?_⟩
    split at h <;> rename_i hc <;> cases h
    · exact .inl ⟨hc, rfl⟩
    · exact .inr ⟨hc, rfl⟩

/-- R133: the operator is finished, or its next child is fetched. -/
theorem foldStep_cases {r : Reduction} (h : foldStep r s = .next t) :
    ∃ f rest, s.estk = f :: rest ∧
      ((f.rem - 1 = 0 ∧ t = { s with
          ovf := foldOvf r f s.val s.ovf, val := foldAcc r f s.val, estk := rest, esub := .fold }) ∨
       (f.rem - 1 ≠ 0 ∧ t = { s with
          ovf := foldOvf r f s.val s.ovf,
          estk := { f with acc := foldAcc r f s.val, rem := f.rem - 1, seeded := true } :: rest, esub := .fetch })) := by
  unfold foldStep at h
  split at h
  · cases h
  · rename_i f rest hf
    refine ⟨f, rest, hf, ?_⟩
    simp only at h
    split at h <;> rename_i hr <;> cases h
    · exact .inl ⟨hr, rfl⟩
    · exact .inr ⟨hr, rfl⟩

/-- An operator's step is the rule of its sub-state. -/
theorem operatorStep_cases {o : Op} {r : Reduction} {c : BitVec 4} (h : operatorStep o r c s = .next t) :
    (s.status = .parse ∧ s.psub = .hdr ∧ t = headerOperator o c s) ∨
    (s.status = .parse ∧ s.psub = .ret ∧ returnStep s = .next t) ∨
    (s.status = .eval ∧ s.esub = .fetch ∧ fetchOperator o c s = .next t) ∨
    (s.status = .eval ∧ s.esub = .fold ∧ foldStep r s = .next t) := by
  unfold operatorStep at h
  cases h1 : s.status <;> cases h2 : s.psub <;> cases h3 : s.esub <;> simp_all

/-- A literal's step is the rule of its sub-state. -/
theorem literalStep_cases (h : literalStep s = .next t) :
    (s.status = .parse ∧ s.psub = .hdr ∧ t = headerLiteral s) ∨
    (s.status = .parse ∧ s.psub = .grp ∧ groupStep s = .next t) ∨
    (s.status = .parse ∧ s.psub = .ret ∧ returnStep s = .next t) ∨
    (s.status = .eval ∧ s.esub = .fetch ∧ fetchLiteral s = .next t) := by
  unfold literalStep at h
  cases h1 : s.status <;> cases h2 : s.psub <;> cases h3 : s.esub <;> simp_all

/-- An illegal type has one step, which raises. -/
theorem illegalStep_cases (h : illegalStep s = .next t) :
    s.status = .parse ∧ s.psub = .hdr ∧ t = raiseFault .invalidPacketType s.pos s := by
  unfold illegalStep at h
  cases h1 : s.status <;> cases h2 : s.psub <;> simp_all [headerIllegal]

/-- The reduction of each operator. -/
def opReduction : Op → Reduction
  | .sum => sumReduction
  | .product => productReduction
  | .min => minReduction
  | .max => maxReduction

/-- The four operators' meanings are the operator step with their own reduction. -/
theorem exec_opInstr (o : Op) (c : BitVec 4) (s : State) :
    exec (opInstr o c) s = operatorStep o (opReduction o) c s := by
  cases o <;> rfl

/-- Every instruction is an operator packet, the literal, or of an illegal type. -/
theorem exec_forms (i : Instr) :
    (∃ o c, i = opInstr o c) ∨ i = .lit ∨ (i.legal = false ∧ ∀ s, exec i s = illegalStep s) := by
  cases i with
  | sum c => exact .inl ⟨.sum, c, rfl⟩
  | product c => exact .inl ⟨.product, c, rfl⟩
  | min c => exact .inl ⟨.min, c, rfl⟩
  | max c => exact .inl ⟨.max, c, rfl⟩
  | lit => exact .inr (.inl rfl)
  | illegal5 => exact .inr (.inr ⟨rfl, fun _ => rfl⟩)
  | illegal6 => exact .inr (.inr ⟨rfl, fun _ => rfl⟩)
  | illegal7 => exact .inr (.inr ⟨rfl, fun _ => rfl⟩)

end Sys2Proof.Machine
end

