-- ==== Sys2Proof/Tests/Slice0.lean ====
section
/-!
SUPPORT. Tests: expected results are those of spec/95_test_vectors.md or worked out by hand from the rule named. Then, for every
statement with hypotheses, a concrete state or input that meets them together (for a statement of several clauses, one for each
clause at the edge of its range).
-/
namespace Sys2Proof.Tests

open Sys2Proof Sys2Proof.Machine

/-- `true` for '1', `false` for '0', other characters left out. -/
def bin (s : String) : List Bool := (s.toList.filter (fun c => c = '0' ∨ c = '1')).map (fun c => decide (c = '1'))

/-- The cells of a bit string from offset `p`. -/
def cells (p : Nat) : List Bool → List (Nat × Bool)
  | [] => []
  | b :: bs => (p, b) :: cells (p + 1) bs

/-- A run just begun by START on a bit string. -/
def run (bs : List Bool) : State := { State.reset with bits := cells 0 bs, len := bs.length, status := .parse }

/-- A state in the evaluation phase at a FOLD step into a frame. -/
def folding (f : EFrame) (val : Word) : State :=
  { State.reset with status := .eval, esub := .fold, estk := [f], val := val }

/-- The step answers a next state of which `p` holds. -/
def after (o : Outcome) (p : State → Bool) : Bool :=
  match o with
  | .next t => p t
  | _ => false

section WellFormed

/-- R70: a literal has at least one group. -/
theorem test_tree_without_groups : (Tree.lit 0 0).wellFormed = false := by decide
/-- R70: the value of `LIT.1` is at most 15. -/
theorem test_tree_value_too_wide : (Tree.lit 1 16).wellFormed = false := by decide
/-- R65: a literal's value is at most INT_MAX. -/
theorem test_tree_value_too_large : (Tree.lit 8 2147483648).wellFormed = false := by decide
/-- R64: an operator has at most 15 children. -/
theorem test_tree_too_many_children : (Tree.op .sum (List.replicate 16 (.lit 1 1))).wellFormed = false := by decide
/-- A child that is not well-formed. -/
theorem test_tree_bad_child : (Tree.op .max [.lit 1 1, .lit 0 0]).wellFormed = false := by decide
/-- R66: types 5, 6 and 7 are illegal. -/
theorem test_illegal_types : Instr.illegal5.legal = false ∧ Instr.illegal6.legal = false ∧ Instr.illegal7.legal = false := by
  decide

end WellFormed

section Decoding

/-- R63, `07030506`: SUM with three children. -/
theorem test_decode_sum : decode (bin "0000011") = .ok (.sum 3, []) := by decide
/-- R63, `27050506`: PRODUCT with three children. -/
theorem test_decode_product : decode (bin "0010011") = .ok (.product 3, []) := by decide
/-- R63: `MIN()`. -/
theorem test_decode_min : decode (bin "0100000") = .ok (.min 0, []) := by decide
/-- R63, R64: MAX with 15 children, and what follows the header. -/
theorem test_decode_max : decode (bin "0111111 01") = .ok (.max 15, [false, true]) := by decide
/-- R63: a literal's header is its type field alone. -/
theorem test_decode_lit : decode (bin "100 00101") = .ok (.lit, bin "00101") := by decide
/-- R63: the three illegal types. -/
theorem test_decode_illegal :
    (decode (bin "101"), decode (bin "110"), decode (bin "111")) = (.ok (.illegal5, []), .ok (.illegal6, []), .ok (.illegal7, [])) := by
  decide
/-- Section 2.3 of the vectors: `000000` is a type without its count. -/
theorem test_decode_short : decode (bin "000000") = .error .countDoesNotFit ∧ decode (bin "11") = .error .typeDoesNotFit := by
  decide
/-- The `match` words of the opcode table. -/
theorem test_table_words :
    [0x00, 0x10, 0x20, 0x30, 0x4, 0x5, 0x6, 0x7].map (decodeTableWord 8) =
      [some (.sum 0), some (.product 0), some (.min 0), some (.max 0), some .lit, some .illegal5, some .illegal6,
        some .illegal7] := by decide
/-- The words of the table with their count, by the table's own widths. -/
theorem test_table_counts :
    (decodeTableWord 7 0x04, decodeTableWord 7 0x3F, decodeTableWord 3 4, decodeTableWord 8 0x80) =
      (some (.sum 4), some (.max 15), some .lit, none) := by decide
/-- R71: `Enc(SUM(LIT 1, LIT 2, LIT 3))`. -/
theorem test_enc :
    (Tree.op .sum [.lit 1 1, .lit 1 2, .lit 1 3]).enc = bin "000 0011 100 00001 100 00010 100 00011" := by decide
/-- R71: its hexadecimal rendering. -/
theorem test_hex : treeHex (.op .sum [.lit 1 1, .lit 1 2, .lit 1 3]) = "07030506".toList := by decide
/-- Section 2.2: `LIT 2021` is `97F14`. -/
theorem test_enc_groups : treeHex (.lit 3 2021) = "97F14".toList := by decide

end Decoding

section Steps

/-- P1, step 1. -/
theorem test_lit_header : after (step (run (bin "100 10111"))) (fun t =>
    t.psub = .grp && t.pos = 3 && t.node = [⟨.lit, 0, 0, 0, 0⟩]) = true := by decide
/-- P1, step 4: the final group of 2021. -/
theorem test_lit_final_group :
    after (step { run (bin "100 10111 11110 00101") with psub := .grp, pos := 13, lval := 126, node := [⟨.lit, 0, 0, 0, 0⟩] })
      (fun t => t.psub = .ret && t.pos = 18 && t.node = [⟨.lit, 0, 2021, 0, 0⟩]) = true := by decide
/-- P5b (c): `LIT 4294967296` overflows although LVAL is 0 after its last group. -/
theorem test_lit_overflow :
    after (step { run (bin "00000") with psub := .grp, lval := 0x10000000, node := [⟨.lit, 0, 0, 0, 0⟩] })
      (fun t => t.status = .fault && t.err = some .literalOverflow && t.epos = 0) = true := by decide
/-- P2, step 1: SUM descends. -/
theorem test_sum_header : after (step (run (bin "0000011"))) (fun t =>
    t.psub = .hdr && t.pos = 7 && t.pstk = [⟨0, 3⟩] && t.node = [⟨.op .sum, 3, 0, 0, 0⟩]) = true := by decide
/-- Section 2.4: `INT_MAX + 1` is `INT_MIN` with OVF. -/
theorem test_sum_wraps : after (exec (.sum 2) (folding ⟨.sum, 1, 2147483647, true⟩ 1)) (fun t =>
    t.val.toInt = -2147483648 && t.ovf && t.estk = []) = true := by decide
/-- P3, step 1. -/
theorem test_product_header : after (step (run (bin "0010010"))) (fun t =>
    t.pstk = [⟨0, 2⟩] && t.node = [⟨.op .product, 2, 0, 0, 0⟩]) = true := by decide
/-- Section 2.4: `46341 * 46341`. -/
theorem test_product_wraps : after (exec (.product 2) (folding ⟨.product, 1, 46341, true⟩ 46341)) (fun t =>
    t.val.toInt = -2147479015 && t.ovf) = true := by decide
/-- P5, step 9: `MIN()` is complete at once. -/
theorem test_min_header : after (step (run (bin "0100000"))) (fun t =>
    t.psub = .ret && t.cur = 0 && t.pstk = [] && t.pos = 7) = true := by decide
/-- Section 2.4: the comparison of MIN is signed. -/
theorem test_min_signed : after (exec (.min 2) (folding ⟨.min, 1, 0, true⟩ 0x80000000)) (fun t =>
    t.val.toInt = -2147483648 && !t.ovf) = true := by decide
/-- P5, step 5. -/
theorem test_max_header : after (step (run (bin "0110010"))) (fun t =>
    t.pstk = [⟨0, 2⟩] && t.node = [⟨.op .max, 2, 0, 0, 0⟩]) = true := by decide
/-- Section 2.4: a wrapped child loses against 0. -/
theorem test_max_signed : after (exec (.max 2) (folding ⟨.max, 1, 0x80000000, true⟩ 0)) (fun t =>
    t.val = 0 && !t.ovf) = true := by decide
/-- Section 2.5: `101`, `110`, `111` of three bits. -/
theorem test_illegal : [bin "101", bin "110", bin "111"].all (fun bs =>
    after (step (run bs)) (fun t => t.status = .fault && t.err = some .invalidPacketType && t.epos = 0)) = true := by decide
/-- Section 2.5: bits `11` are too few for a type. -/
theorem test_short_type : after (step (run (bin "11"))) (fun t => t.err = some .outOfBits && t.epos = 0) = true := by decide
/-- Section 2.3: bits `000` are a type without its count. -/
theorem test_short_count : after (step (run (bin "000"))) (fun t => t.err = some .outOfBits && t.epos = 3) = true := by decide
/-- P2, step 10: the last child returns to its parent. -/
theorem test_return : after (step { run [] with
    psub := .ret, pos := 31, cur := 1, pstk := [⟨0, 1⟩], node := [⟨.op .sum, 3, 0, 0, 0⟩, ⟨.lit, 0, 3, 23, 0⟩] })
    (fun t => t.psub = .ret && t.cur = 0 && t.pstk = [] && t.node[1]? = some ⟨.lit, 0, 3, 23, 8⟩) = true := by decide
/-- P2, step 11: the outermost packet is complete. -/
theorem test_parse_ends : after (step { run [] with psub := .ret, pos := 31, node := [⟨.op .sum, 3, 0, 0, 0⟩] }) (fun t =>
    t.status = .eval && t.consumed = 31 && t.esub = .fetch && t.eptr = 0) = true := by decide
/-- P5, step 19: an operator without children. -/
theorem test_empty_operator : after (step { run [] with
    status := .eval, consumed := 37, node := [⟨.op .min, 0, 0, 30, 7⟩] }) (fun t =>
    t.status = .fault && t.err = some .emptyOperator && t.epos = 30 && t.consumed = 0) = true := by decide
/-- P2, step 14: the first child seeds the accumulator. -/
theorem test_seed : after (step (folding ⟨.sum, 3, 0, false⟩ 1)) (fun t =>
    t.estk = [⟨.sum, 2, 1, true⟩] && t.esub = .fetch) = true := by decide
/-- P2, step 19: the end of the run. -/
theorem test_finish : after (step { folding ⟨.sum, 1, 0, true⟩ 6 with estk := [] }) (fun t =>
    t.status = .done && t.result = 6) = true := by decide
/-- A table word runs as the first instruction. -/
theorem test_with_fetch_word :
    after (step (State.reset.withFetchWord 8 4)) (fun t => t.psub = .grp && t.pos = 3) = true ∧
    after (step (State.reset.withFetchWord 8 0x30)) (fun t => t.psub = .ret && t.node = [⟨.op .max, 0, 0, 0, 0⟩]) = true := by
  decide

end Steps

section HostSide

/-- Section 2.9: after reset all registers read 0. -/
theorem test_reset_reads :
    [HostReg.cmd, .status, .err, .epos, .result, .consumed, .flags, .len].map (hostRead State.reset) =
      [0, 0, 0, 0, 0, 0, 0, 0] := by decide
/-- R187, R190: OVF set in EVAL reads 0 from FLAGS, and 1 once STATUS = DONE. -/
theorem test_flags_before_done :
    (hostRead { State.reset with status := .eval, ovf := true } .flags,
      hostRead { State.reset with status := .done, ovf := true } .flags) = (0, 1) := by decide
/-- Section 2.9: START in FAULT is dropped, CLEAR leads to IDLE with LEN kept. -/
theorem test_commands_in_fault :
    after (step { run [] with status := .fault, err := some .outOfBits, epos := 23, agenda := [.writeReg .cmd 1] })
      (fun t => t.status = .fault && t.err = some .outOfBits && t.epos = 23) = true ∧
    after (step { run [] with status := .fault, err := some .outOfBits, epos := 23, len := 24, agenda := [.writeReg .cmd 2] })
      (fun t => t.status = .idle && t.err = none && t.epos = 0 && t.len = 24) = true := by decide
/-- Section 2.9: a write of BITS in PARSE is dropped. -/
theorem test_cell_write_dropped :
    after (step { run [false] with agenda := [.writeBit 0 true] }) (fun t => t.bits = [(0, false)]) = true := by decide
/-- R25: writing cells out of order and again. -/
theorem test_cells : writeCell (writeCell (writeCell [] 3 true) 1 false) 3 false = [(1, false), (3, false)] := by decide
/-- Section 2.1: `97f14`. -/
theorem test_converter : hexToBits "97f14".toList = .ok (bin "10010111111100010100") := by decide
/-- Section 2.1: `0x97` and the empty string. -/
theorem test_converter_fails :
    hexToBits "0x97".toList = .error .invalidInput ∧ hexToBits [] = .error .invalidInput := by decide
/-- S2: `decode("07030506") == 6`. -/
theorem test_facade_sum : decodeHex "07030506".toList = .ok 6 := by decide +kernel
/-- Section 2.7: a parse fault outranks an earlier empty operator, `04028`. -/
theorem test_priority : verdictOf (bin "0000 0100 0000 0010 1000") = .failed .invalidPacketType 14 := by decide +kernel

end HostSide

section Witnesses

/-- The states of a run on `SUM(LIT 7)` = `0000001 100 00111`: after the first header, ... -/
def sumOfSeven : State :=
  { run (bin "0000001 100 00111") with pos := 7, pstk := [⟨0, 1⟩], node := [⟨.op .sum, 1, 0, 0, 0⟩] }
/-- ... at the literal's group, ... -/
def sumOfSevenGrp : State :=
  { sumOfSeven with pos := 10, psub := .grp, cur := 1, node := [⟨.op .sum, 1, 0, 0, 0⟩, ⟨.lit, 0, 0, 7, 0⟩] }
/-- ... at the literal's return, ... -/
def sumOfSevenRet : State :=
  { sumOfSevenGrp with pos := 15, psub := .ret, lval := 7, node := [⟨.op .sum, 1, 0, 0, 0⟩, ⟨.lit, 0, 7, 7, 0⟩] }
/-- ... at the operator's return, ... -/
def sumOfSevenEnd : State :=
  { sumOfSevenRet with cur := 0, pstk := [], node := [⟨.op .sum, 1, 0, 0, 0⟩, ⟨.lit, 0, 7, 7, 8⟩] }
/-- ... when the evaluation begins, ... -/
def sumOfSevenEval : State :=
  { sumOfSevenEnd with
    status := .eval, consumed := 15, node := [⟨.op .sum, 1, 0, 0, 15⟩, ⟨.lit, 0, 7, 7, 8⟩] }
/-- ... when the literal is fetched, ... -/
def sumOfSevenFetch : State := { sumOfSevenEval with eptr := 1, estk := [⟨.sum, 1, 0, false⟩] }
/-- ... when its value is folded in, ... -/
def sumOfSevenFold : State := { sumOfSevenFetch with eptr := 2, esub := .fold, val := 7 }
/-- ... at the last step, ... -/
def sumOfSevenLast : State := { sumOfSevenFold with estk := [] }
/-- ... and when it is done. -/
def sumOfSevenDone : State := { sumOfSevenLast with status := .done, result := 7 }
/-- BITS and LEN loaded, STATUS = IDLE. -/
def loaded (bs : List Bool) : State := { State.reset with bits := cells 0 bs, len := bs.length }

theorem witness_inv_parse : Inv sumOfSeven :=
  ⟨by constructor <;> decide, fun _ => by constructor <;> decide, fun h => absurd h (by decide)⟩
theorem witness_inv_fetch : Inv sumOfSevenFetch :=
  ⟨by constructor <;> decide, fun h => absurd h (by decide), fun _ => by constructor <;> decide⟩
theorem witness_inv_last : Inv sumOfSevenLast :=
  ⟨by constructor <;> decide, fun h => absurd h (by decide), fun _ => by constructor <;> decide⟩
theorem witness_inv_idle : Inv (loaded []) :=
  ⟨by constructor <;> decide, fun h => absurd h (by decide), fun h => absurd h (by decide)⟩
theorem witness_capacity : WithinCapacity (loaded []) := ⟨Nat.zero_le _, by decide⟩

/-- DecodedBitsSpellTheHeader -/
theorem witness_decoded : decode (bin "0100000 1") = .ok (.min 0, [true]) := by decide
/-- ParsingAnEncodedTree -/
theorem witness_tree : (Tree.op .product [.lit 8 2147483647, .op .min [], .lit 2 5]).wellFormed = true := by decide
/-- ConverterGivesFourBitsADigit -/
theorem witness_converter : hexToBits ['9', 'f'] = .ok (bin "10011111") ∧ ['9', 'f'][1]? = some 'f' := by decide
/-- ConverterFailsOnOtherCharacters, last clause -/
theorem witness_converter_fails : hexToBits ['9', 'G'] = .error .invalidInput := by decide
/-- ResetValues: a reset that is next on the agenda, in the middle of a run -/
theorem witness_reset : ({ sumOfSevenFold with agenda := [.reset] } : State).agenda = [.reset] ∧
    applyReset sumOfSevenFold = { State.reset with powerOn := 1 } := by decide
/-- StepKeepsInvariant, in both phases -/
theorem witness_step_inv :
    (Inv sumOfSeven ∧ ∃ t, step sumOfSeven = .next t) ∧ (Inv sumOfSevenFetch ∧ ∃ t, step sumOfSevenFetch = .next t) :=
  ⟨⟨witness_inv_parse, _, rfl⟩, ⟨witness_inv_fetch, _, rfl⟩⟩
/-- StepKeepsCapacity -/
theorem witness_step_capacity : WithinCapacity (loaded []) ∧ ∃ t, step (loaded []) = .next t := ⟨witness_capacity, _, rfl⟩
/-- InvariantStatesStep: an agenda that the hypothesis restricts and allows -/
theorem witness_steps : Inv { loaded [] with agenda := [.writeReg .cmd 1] } ∧
    ∀ a later, [HostAccess.writeReg .cmd 1] = a :: later → CellExists a :=
  ⟨⟨by constructor <;> decide, fun h => absurd h (by decide), fun h => absurd h (by decide)⟩,
    fun a later h => by cases h; trivial⟩
/-- StoresNeverOverflow, in both phases, and its last clause -/
theorem witness_stores : (Inv sumOfSeven ∧ sumOfSeven.status = .parse) ∧ (Inv sumOfSevenFetch ∧ sumOfSevenFetch.status = .eval) ∧
    ({ loaded [] with status := .parse } : State).len ≤ Config.maxBits :=
  ⟨⟨witness_inv_parse, rfl⟩, ⟨witness_inv_fetch, rfl⟩, Nat.zero_le _⟩
/-- FetchFindsANode, both clauses -/
theorem witness_fetch_finds : (Inv sumOfSevenFetch ∧ sumOfSevenFetch.esub = .fetch) ∧
    (Inv sumOfSevenLast ∧ sumOfSevenLast.esub = .fold ∧ sumOfSevenLast.estk = []) :=
  ⟨⟨witness_inv_fetch, rfl⟩, ⟨witness_inv_last, rfl, rfl⟩⟩
/-- RegisterReadsFitTheirWidth -/
theorem witness_register_widths : Inv (loaded []) ∧ WithinCapacity (loaded []) := ⟨witness_inv_idle, witness_capacity⟩
/-- StatusTransitions: a step of each phase -/
theorem witness_status : after (step sumOfSevenEnd) (fun t => t.status = .eval) = true ∧
    after (step sumOfSevenLast) (fun t => t.status = .done) = true ∧
    after (step { loaded [] with agenda := [.writeReg .cmd 1] }) (fun t => t.status = .parse) = true := by decide
/-- OutcomeIsHeldUntilClear: a dropped START, CLEAR and reset -/
theorem witness_held : sumOfSevenDone.status = .done ∧
    after (step { sumOfSevenDone with agenda := [.writeReg .cmd 1] }) (fun t => t.result = 7) = true ∧
    after (step { sumOfSevenDone with agenda := [.writeReg .cmd 2] }) (fun t => t.result = 0) = true ∧
    after (step { sumOfSevenDone with agenda := [.reset] }) (fun t => t.len = 0) = true := by decide
/-- StepRunsTheHeaderAtPos, both clauses -/
theorem witness_header_at_pos : sumOfSeven.status = .parse ∧ sumOfSeven.psub = .hdr ∧ sumOfSeven.agenda = [] ∧
    decode (sumOfSeven.window 7) = .ok (.lit, bin "0011") ∧
    decode (({ sumOfSeven with agenda := [.engine, .reset] } : State).window 7) = .ok (.lit, bin "0011") := by decide
/-- StepRunsTheStoredPacket, its four clauses -/
theorem witness_stored_packet :
    (sumOfSevenGrp.agenda = [] ∧ sumOfSevenGrp.status = .parse ∧ sumOfSevenGrp.psub = .grp) ∧
    (sumOfSevenRet.psub = .ret ∧ sumOfSevenRet.nodeAt sumOfSevenRet.cur = some ⟨.lit, 0, 7, 7, 0⟩) ∧
    (sumOfSevenFetch.esub = .fetch ∧ sumOfSevenFetch.nodeAt sumOfSevenFetch.eptr = some ⟨.lit, 0, 7, 7, 8⟩) ∧
    (sumOfSevenFold.status = .eval ∧ sumOfSevenFold.esub = .fold ∧ sumOfSevenFold.estk = [⟨.sum, 1, 0, false⟩]) := by decide
/-- HeaderStep, its five clauses, at the edges of the bits left: 2 | 3 and 101 | 3 and 100 | 6 and an operator | 7 and an
operator, without and with children -/
theorem witness_header_step :
    (run (bin "11")).len - (run (bin "11")).pos = 2 ∧
    ((run (bin "101")).field 0 3 = 5 ∧ (run (bin "101")).len = 3) ∧
    ((run (bin "100")).field 0 3 = 4 ∧ (run (bin "100")).len = 3) ∧
    ((run (bin "011000")).field 0 3 = 3 ∧ (run (bin "011000")).len = 6) ∧
    ((run (bin "0000000")).field 0 3 = 0 ∧ (run (bin "0000000")).field 3 4 = 0 ∧ (run (bin "0000000")).len = 7) ∧
    ((run (bin "0111111")).field 0 3 = 3 ∧ (run (bin "0111111")).field 3 4 = 15) := by decide
/-- NoEngineStepOutsideARun -/
theorem witness_no_step : sumOfSevenDone.agenda = [] ∧ sumOfSevenDone.status = .done := by decide
/-- ClearCommand, last clause -/
theorem witness_clear : Inv (loaded []) ∧ (loaded []).status = .idle := ⟨witness_inv_idle, rfl⟩
/-- EndOfRun -/
theorem witness_end_of_run : sumOfSevenLast.agenda = [] ∧ sumOfSevenLast.status = .eval ∧ sumOfSevenLast.esub = .fold ∧
    sumOfSevenLast.estk = [] := by decide
/-- CursorGrowsByTheBitsRead, its three clauses, the first for both kinds of header -/
theorem witness_cursor : after (step (run (bin "0000000"))) (fun t => t.status ≠ .fault && t.pos = 7) = true ∧
    after (step sumOfSeven) (fun t => t.status ≠ .fault && t.pos = 10) = true ∧
    after (step sumOfSevenGrp) (fun t => t.status ≠ .fault && t.pos = 15) = true ∧
    after (step sumOfSevenRet) (fun t => t.status ≠ .fault && t.pos = 15) = true := by decide
/-- OverflowFlagIsSticky, both clauses -/
theorem witness_sticky :
    after (step (folding ⟨.sum, 1, 2147483647, true⟩ 1)) (fun t => t.status ≠ .fault && t.ovf) = true ∧
    after (step { folding ⟨.max, 1, 5, true⟩ 1 with ovf := true }) (fun t => t.status ≠ .fault && t.ovf) = true := by decide
/-- EngineNeverWritesTheInput -/
theorem witness_engine_run : ∃ t, Sys2Proof.core.run 3 sumOfSeven = .next t := ⟨_, rfl⟩
/-- FrameOfEveryPacketType: a parse step, the step that ends the phase, an evaluation step -/
theorem witness_frame : after (exec .lit sumOfSeven) (fun t => t.status = .parse) = true ∧
    after (exec (.sum 1) sumOfSevenEnd) (fun t => t.status = .eval) = true ∧
    after (exec (.sum 1) sumOfSevenFold) (fun t => t.status = .eval) = true := by decide
/-- OperatorHeader, LiteralHeader, IllegalTypesRaise -/
theorem witness_header : sumOfSeven.status = .parse ∧ sumOfSeven.psub = .hdr := by decide
/-- GroupThatDoesNotFit: 4 of 5 bits -/
theorem witness_group_cut :
    ({ sumOfSevenGrp with len := 14 } : State).len - sumOfSevenGrp.pos = 4 ∧ sumOfSevenGrp.psub = .grp := by decide
/-- GroupWithMoreToFollow, at a value whose next digit passes 2^32 -/
theorem witness_group_more : ∃ s : State, s.status = .parse ∧ s.psub = .grp ∧ 5 ≤ s.len - s.pos ∧ HoldsLiteral s 268435456 ∧
    16 ≤ s.field s.pos 5 :=
  ⟨{ run (bin "10000") with psub := .grp, lval := 268435456 }, rfl, rfl, by decide, ⟨rfl, by decide⟩, by decide⟩
/-- FinalGroupStoresTheValue, at INT_MAX -/
theorem witness_group_final : ∃ s : State, s.status = .parse ∧ s.psub = .grp ∧ 5 ≤ s.len - s.pos ∧
    HoldsLiteral s 134217727 ∧ s.field s.pos 5 < 16 ∧ s.nodeAt s.cur = some ⟨.lit, 0, 0, 0, 0⟩ ∧
    ((134217727 * 16 + s.field s.pos 5 : Nat) : Int) = intMax :=
  ⟨{ run (bin "01111") with psub := .grp, lval := 134217727, node := [⟨.lit, 0, 0, 0, 0⟩] },
    rfl, rfl, by decide, ⟨rfl, by decide⟩, by decide, rfl, by decide⟩
/-- FinalGroupOverflows, at INT_MAX + 1 -/
theorem witness_group_overflow : ∃ s : State, s.status = .parse ∧ s.psub = .grp ∧ 5 ≤ s.len - s.pos ∧
    HoldsLiteral s 134217728 ∧ s.field s.pos 5 < 16 ∧ s.nodeAt s.cur = some ⟨.lit, 0, 0, 0, 0⟩ ∧
    ((134217728 * 16 + s.field s.pos 5 : Nat) : Int) = intMax + 1 :=
  ⟨{ run (bin "00000") with psub := .grp, lval := 134217728, node := [⟨.lit, 0, 0, 0, 0⟩] },
    rfl, rfl, by decide, ⟨rfl, by decide⟩, by decide, rfl, by decide⟩
/-- ReturnCompletesThePacket, its three clauses -/
theorem witness_return : (Instr.sum 1).legal = true ∧ Instr.lit.legal = true ∧
    (sumOfSevenEnd.pstk = [] ∧ sumOfSevenEnd.nodeAt sumOfSevenEnd.cur = some ⟨.op .sum, 1, 0, 0, 0⟩) ∧
    (sumOfSevenRet.pstk = [⟨0, 1⟩] ∧ sumOfSevenRet.nodeAt sumOfSevenRet.cur = some ⟨.lit, 0, 7, 7, 0⟩) ∧
    ({ sumOfSevenRet with pstk := [⟨0, 2⟩] } : State).pstk = [⟨0, 2⟩] := by decide
/-- FetchLiteral, FetchOperator (with and without children) -/
theorem witness_fetch : sumOfSevenFetch.status = .eval ∧ sumOfSevenFetch.esub = .fetch ∧
    sumOfSevenFetch.nodeAt sumOfSevenFetch.eptr = some ⟨.lit, 0, 7, 7, 8⟩ ∧
    sumOfSevenEval.nodeAt sumOfSevenEval.eptr = some ⟨.op .sum, 1, 0, 0, 15⟩ ∧ (1 : BitVec 4) ≠ 0 := by decide
/-- FirstChildSeedsTheAccumulator -/
theorem witness_seed : (folding ⟨.min, 15, 0, false⟩ 9).status = .eval ∧ (folding ⟨.min, 15, 0, false⟩ 9).esub = .fold ∧
    (folding ⟨.min, 15, 0, false⟩ 9).estk = [⟨.min, 15, 0, false⟩] := by decide
/-- SumFold, ProductFold, MinFold, MaxFold: a frame with its last child due and one with more -/
theorem witness_fold : (folding ⟨.sum, 1, 5, true⟩ 9).estk = [⟨.sum, 1, 5, true⟩] ∧
    (folding ⟨.sum, 2, 5, true⟩ 9).estk = [⟨.sum, 2, 5, true⟩] ∧ (folding ⟨.sum, 1, 5, true⟩ 9).status = .eval ∧
    (folding ⟨.sum, 1, 5, true⟩ 9).esub = .fold := by decide
/-- StepTakesTheOldestAccess -/
theorem witness_agenda : ({ sumOfSeven with agenda := [.engine, .reset] } : State).agenda = .engine :: [.reset] := by decide
/-- WriteOfACell, WriteOfAByte: the clauses are told apart by STATUS, and in IDLE by an if and else -/
theorem witness_cell_write : sumOfSeven.status ≠ .idle ∧ (loaded []).status = .idle := by decide
/-- OtherRegisterWrites: a read-only register -/
theorem witness_read_only : HostReg.status ≠ .cmd ∧ HostReg.status ≠ .len := by decide
/-- RegisterReads: the clauses for a run, in both phases, and the clause for FLAGS with OVF set before DONE -/
theorem witness_reads : (Inv sumOfSeven ∧ sumOfSeven.status = .parse) ∧ (Inv sumOfSevenFetch ∧ sumOfSevenFetch.status = .eval) ∧
    ({ sumOfSevenFetch with ovf := true } : State).status ≠ .done :=
  ⟨⟨witness_inv_parse, rfl⟩, ⟨witness_inv_fetch, rfl⟩, by decide⟩
/-- LengthProperty: a packet that does not begin at 0 -/
theorem witness_parse : parsePacket 1 (bin "0000001 100 00111") 7 = .ok (.lit 7 7 8) := by rfl
/-- TrailingBitsAreIgnored -/
theorem witness_parse_run : parseRun (bin "0000001 100 00111 1") = .ok (.op .sum 1 [.lit 7 7 8] 0 15) := by rfl
/-- NoOverflowMeansExact, with and without overflow -/
theorem witness_evaluate :
    (packetWf (.op .sum 1 [.lit 7 7 8] 0 15) = true ∧ evaluate (.op .sum 1 [.lit 7 7 8] 0 15) = .ok (7, false)) ∧
    (packetWf (.op .sum 2 [.lit 2147483647 7 43, .lit 1 50 8] 0 58) = true ∧
      evaluate (.op .sum 2 [.lit 2147483647 7 43, .lit 1 50 8] 0 58) = .ok (-2147483648, true)) := by decide +kernel
/-- EmptyOperatorIsTheFirst: both sides, `SUM(SUM(), PRODUCT())` -/
theorem witness_empty : verdictOf (bin "0000010 0000000 0010000") = .failed .emptyOperator 7 := by decide +kernel
/-- OutcomeBounds, its clauses at their bounds: CONSUMED 8, and positions 0 and LEN -/
theorem witness_outcomes : verdictOf (bin "100 00000") = .done 0 8 false ∧
    verdictOf (bin "101") = .failed .invalidPacketType 0 ∧ verdictOf (bin "100") = .failed .outOfBits 3 ∧
    verdictOf (bin "100 0000") = .failed .outOfBits 3 := by decide +kernel
/-- RunAgreesWithTheFunctionalView -/
theorem witness_idle : (loaded (bin "0000001 100 00111")).status = .idle ∧ (loaded (bin "0000001 100 00111")).agenda = [] := by
  decide
/-- NodeStoreHoldsTheTree, StepsOfAFaultFreeRun -/
theorem witness_run :
    parseRun (loaded (bin "0000001 100 00111")).stream = .ok (.op .sum 1 [.lit 7 7 8] 0 15) ∧
    evaluate (.op .sum 1 [.lit 7 7 8] 0 15) = .ok (7, false) := ⟨by rfl, by decide +kernel⟩
/-- RunsDependOnTheStreamAlone: another power-on, another cell at LEN, other hidden state -/
theorem witness_two_runs :
    (loaded (bin "101")).stream = ({ loaded (bin "1011") with len := 3, powerOn := 1, cur := 5 } : State).stream ∧
    ∃ t, Sys2Proof.core.run 2 (commandStart (loaded (bin "101"))) = .next t := ⟨by rfl, _, rfl⟩
/-- HostSequenceDecodes -/
theorem witness_host_sequence : ([] : List Bool).length ≤ Config.maxBits ∧
    ({ sumOfSeven with agenda := hostSequence [] } : State).agenda = hostSequence [] := ⟨Nat.zero_le _, rfl⟩

end Witnesses

end Sys2Proof.Tests
end

section
/-! PROOF. `wrap_W` as the integer form `wrapInt` and as the word form `wrapWord` (R9, R109). -/
namespace Sys2Proof.Machine

open Sys2Proof

theorem wrapInt_mem_range (e : Int) : intMin ≤ wrapInt e ∧ wrapInt e ≤ intMax := by
  unfold wrapInt intMin intMax
  omega

/-- The multiple of 2^32 that `wrap_W` takes away. -/
theorem sub_wrapInt (e : Int) : e - wrapInt e = 2 ^ 32 * ((e - intMin) / 4294967296) := by
  unfold wrapInt intMin
  omega

theorem outsideRange_iff (e : Int) : outsideRange e = true ↔ intMax < e ∨ e < intMin := by
  simp [outsideRange]

theorem wrapInt_eq_self_iff (e : Int) : wrapInt e = e ↔ intMin ≤ e ∧ e ≤ intMax := by
  constructor
  · intro h
    exact h ▸ wrapInt_mem_range e
  · unfold wrapInt intMin intMax
    omega

theorem outsideRange_iff_wrapInt_ne (e : Int) : outsideRange e = true ↔ wrapInt e ≠ e := by
  rw [outsideRange_iff, Ne, wrapInt_eq_self_iff]
  omega

/-- The signed value of the word form is the integer form: the balanced remainder modulo 2^32 is the one in range. -/
theorem toInt_wrapWord (e : Int) : (wrapWord e).toInt = wrapInt e := by
  rw [wrapWord, BitVec.toInt_ofInt, Int.bmod_def, wrapInt, intMin]
  split <;> omega

end Sys2Proof.Machine

open Sys2Proof.Machine in
/-- Settles O43: range, congruence, what moves, and the word form, each by its own lemma. -/
theorem wrapLaw : Obligations.WrapLaw := fun e =>
  have ⟨hmin, hmax⟩ := wrapInt_mem_range e
  ⟨hmin, hmax, ⟨_, sub_wrapInt e⟩, outsideRange_iff_wrapInt_ne e, toInt_wrapWord e⟩
end

section
/-! PROOF. What a host register can read fits its width (R8, R16). -/
namespace Sys2Proof.Machine

open Sys2Proof

/-- R8: AW bits hold every bit offset from 0 to MAXBITS. -/
theorem lt_two_pow_aw {n : Nat} (h : n ≤ Config.maxBits) : n < 2 ^ Config.aw :=
  calc n < Config.maxBits + 1 := Nat.lt_succ_of_le h
    _ ≤ 2 ^ Config.aw := Nat.le_pow_clog Nat.one_lt_two _

theorem statusCode_lt (st : Status) : Status.code st < 2 ^ 3 := by
  cases st <;> decide

theorem errCode_lt (e : Option FailureKind) : errCode e < 2 ^ 3 := by
  rcases e with _ | k
  · decide
  · cases k <;> decide

theorem flagsRead_lt (s : State) : s.flagsRead < 2 ^ 1 := by
  unfold State.flagsRead
  split
  · exact Bool.toNat_lt _
  · decide

/-- R22: CONSUMED is 0 where it is no extent of a packet tree, and an extent lies within the stream. -/
theorem RegInv.consumed_le {s : State} (h : RegInv s) : s.consumed ≤ s.len := by
  by_cases hrun : s.status = .eval ∨ s.status = .done
  · exact (h.consumed_range hrun).2
  · rw [h.consumed_zero (fun he => hrun (.inl he)) (fun hd => hrun (.inr hd))]
    exact Nat.zero_le _

theorem hostRead_lt_two_pow_width {s : State} (hreg : RegInv s) (hlen : s.len ≤ Config.maxBits) (r : HostReg) :
    hostRead s r < 2 ^ HostReg.width r := by
  cases r with
  | cmd => exact Nat.two_pow_pos _
  | status => exact statusCode_lt _
  | err => exact errCode_lt _
  | epos => exact lt_two_pow_aw (hreg.epos_le.trans hlen)
  | result => exact s.result.isLt
  | consumed => exact lt_two_pow_aw (hreg.consumed_le.trans hlen)
  | flags => exact flagsRead_lt s
  | len => exact lt_two_pow_aw hlen

end Sys2Proof.Machine

open Sys2Proof.Machine in
/-- Settles O15, register by register: codes by their tables, bit offsets by LEN, which is at most MAXBITS. -/
theorem registerReadsFitTheirWidth : Obligations.RegisterReadsFitTheirWidth :=
  fun _ r hinv hcap => hostRead_lt_two_pow_width hinv.reg hcap.len_le r
end

section
/-!
PROOF. What one step can do, said once: the rules of 42_sequencer as a relation `EngineMove` that the engine's step meets
exactly, and the host's accesses as a relation `HostMove`.
-/
namespace Sys2Proof.Machine

open Sys2Proof

variable {s t : State}

/-! The engine's step in each sub-state (R122). -/

theorem engineStep_header {i : Instr} {rest : List Bool} (hs : s.status = .parse) (hp : s.psub = .hdr)
    (hd : decode (s.window 7) = .ok (i, rest)) : engineStep s = exec i s := by
  simp [engineStep, pending, fetchHeader, hs, hp, hd]

theorem engineStep_typeCut (hs : s.status = .parse) (hp : s.psub = .hdr)
    (hd : decode (s.window 7) = .error .typeDoesNotFit) : engineStep s = .next (raiseFault .outOfBits s.pos s) := by
  simp [engineStep, pending, fetchHeader, hs, hp, hd]

theorem engineStep_countCut (hs : s.status = .parse) (hp : s.psub = .hdr)
    (hd : decode (s.window 7) = .error .countDoesNotFit) :
    engineStep s = .next (raiseFault .outOfBits (s.pos + 3) s) := by
  simp [engineStep, pending, fetchHeader, hs, hp, hd]

theorem engineStep_grp (hs : s.status = .parse) (hp : s.psub = .grp) : engineStep s = groupStep s := by
  simp [engineStep, pending, exec, execLit, literalStep, hs, hp]

/-- A stored packet is a literal or an operator (R26). -/
theorem Node.instr_cases (n : Node) :
    (n.tid = .lit ∧ n.instr = .lit) ∨ ∃ o, n.tid = .op o ∧ n.instr = opInstr o n.cnt := by
  rcases h : n.tid with o | _
  · exact .inr ⟨o, rfl, by cases o <;> simp [Node.instr, opInstr, h]⟩
  · exact .inl ⟨rfl, by simp [Node.instr, h]⟩

theorem engineStep_ret (hs : s.status = .parse) (hp : s.psub = .ret) : engineStep s = returnStep s := by
  cases hn : s.nodeAt s.cur with
  | none => simp [engineStep, pending, storedPacket, returnStep, hs, hp, hn]
  | some n =>
    have hrun : engineStep s = exec n.instr s := by simp [engineStep, pending, storedPacket, hs, hp, hn]
    rcases n.instr_cases with ⟨-, hi⟩ | ⟨o, -, hi⟩
    · simp [hrun, hi, exec, execLit, literalStep, hs, hp]
    · simp [hrun, hi, exec_opInstr, operatorStep, hs, hp]

theorem engineStep_fetch_lit {n : Node} (hs : s.status = .eval) (he : s.esub = .fetch)
    (hn : s.node[s.eptr]? = some n) (ht : n.tid = .lit) : engineStep s = fetchLiteral s := by
  have hn' : s.nodeAt s.eptr = some n := hn
  simp [engineStep, pending, storedPacket, hs, he, hn', Node.instr, ht, exec, execLit, literalStep]

theorem engineStep_fetch_op {n : Node} {o : Op} (hs : s.status = .eval) (he : s.esub = .fetch)
    (hn : s.node[s.eptr]? = some n) (ht : n.tid = .op o) : engineStep s = fetchOperator o n.cnt s := by
  have hn' : s.nodeAt s.eptr = some n := hn
  have hi : n.instr = opInstr o n.cnt := by
    rcases n.instr_cases with ⟨hl, -⟩ | ⟨o', ho, hi⟩
    · simp [ht] at hl
    · cases ht.symm.trans ho
      exact hi
  simp [engineStep, pending, storedPacket, hs, he, hn', hi, exec_opInstr, operatorStep]

theorem engineStep_fetch_none (hs : s.status = .eval) (he : s.esub = .fetch) (hn : s.node[s.eptr]? = none) :
    engineStep s = .fault .noNode := by
  have hn' : s.nodeAt s.eptr = none := hn
  simp [engineStep, pending, storedPacket, hs, he, hn']

theorem engineStep_fold {f : EFrame} {rest : List EFrame} (hs : s.status = .eval) (he : s.esub = .fold)
    (hf : s.estk = f :: rest) : engineStep s = foldStep (opReduction f.op) s := by
  simp [engineStep, pending, hs, he, hf, exec_opInstr, operatorStep]

theorem engineStep_finish (hs : s.status = .eval) (he : s.esub = .fold) (hf : s.estk = []) :
    engineStep s = .next (finishRun s) := by
  simp [engineStep, pending, hs, he, hf]

theorem engineStep_rest (hp : s.status ≠ .parse) (he : s.status ≠ .eval) : engineStep s = .next s := by
  cases hs : s.status <;> simp_all [engineStep, pending]

/-- R125: the writes of a group step whose group is read. -/
def readGroup (g : Group) (s : State) : State :=
  { s with lov := lovAfter s.lov s.lval, lval := shiftInNibble s.lval g.nibble, pos := s.pos + 5, psub := .grp }

/-- R126: the value of a literal that is not too large is stored, and the packet is complete. -/
def storeValue (n : Node) (s : State) : State :=
  { s with node := s.node.set s.cur { n with val := s.lval }, psub := .ret }

/-- One engine step from `s`: a constructor per outcome of a rule of 42_sequencer, with its guards. -/
inductive EngineMove (s : State) : State → Prop
  /-- R122 -/
  | rest (hp : s.status ≠ .parse) (he : s.status ≠ .eval) : EngineMove s s
  /-- R123: the type field does not fit -/
  | typeCut (hs : s.status = .parse) (hp : s.psub = .hdr) (hd : decode (s.window 7) = .error .typeDoesNotFit) :
      EngineMove s (raiseFault .outOfBits s.pos s)
  /-- R124: the count field does not fit -/
  | countCut (hs : s.status = .parse) (hp : s.psub = .hdr) (hd : decode (s.window 7) = .error .countDoesNotFit) :
      EngineMove s (raiseFault .outOfBits (s.pos + 3) s)
  /-- R87, R123 -/
  | illegal {i : Instr} {rest : List Bool} (hs : s.status = .parse) (hp : s.psub = .hdr)
      (hd : decode (s.window 7) = .ok (i, rest)) (hi : i.legal = false) :
      EngineMove s (raiseFault .invalidPacketType s.pos s)
  /-- R123 -/
  | literal {rest : List Bool} (hs : s.status = .parse) (hp : s.psub = .hdr) (hd : decode (s.window 7) = .ok (.lit, rest)) :
      EngineMove s { s with
        node := s.node ++ [⟨.lit, 0, 0, s.pos, 0⟩], cur := s.node.length, lval := 0, lov := false,
        pos := s.pos + 3, psub := .grp }
  /-- R124: an operator without children is complete at once -/
  | leaf {o : Op} {rest : List Bool} (hs : s.status = .parse) (hp : s.psub = .hdr)
      (hd : decode (s.window 7) = .ok (opInstr o 0, rest)) :
      EngineMove s { s with
        node := s.node ++ [⟨.op o, 0, 0, s.pos, 0⟩], pos := s.pos + 7, cur := s.node.length, psub := .ret }
  /-- R124: descend to child 0 -/
  | descend {o : Op} {c : BitVec 4} {rest : List Bool} (hs : s.status = .parse) (hp : s.psub = .hdr)
      (hd : decode (s.window 7) = .ok (opInstr o c, rest)) (hc : c ≠ 0) :
      EngineMove s { s with
        node := s.node ++ [⟨.op o, c, 0, s.pos, 0⟩], pos := s.pos + 7,
        pstk := ⟨s.node.length, c.toNat⟩ :: s.pstk, psub := .hdr }
  /-- R125: the group does not fit -/
  | groupCut (hs : s.status = .parse) (hp : s.psub = .grp) (hg : s.group = none) :
      EngineMove s (raiseFault .outOfBits s.pos s)
  /-- R125: a group with more to follow -/
  | groupMore {g : Group} (hs : s.status = .parse) (hp : s.psub = .grp) (hg : s.group = some g) (hm : g.more = true) :
      EngineMove s (readGroup g s)
  /-- R126: the final group of a literal that is too large -/
  | groupOverflow {g : Group} {n : Node} (hs : s.status = .parse) (hp : s.psub = .grp) (hg : s.group = some g)
      (hm : g.more = false) (hn : s.node[s.cur]? = some n)
      (ho : literalOverflows (readGroup g s).lov (readGroup g s).lval = true) :
      EngineMove s (raiseFault .literalOverflow n.start (readGroup g s))
  /-- R126: the final group of another literal -/
  | groupFinal {g : Group} {n : Node} (hs : s.status = .parse) (hp : s.psub = .grp) (hg : s.group = some g)
      (hm : g.more = false) (hn : s.node[s.cur]? = some n)
      (ho : literalOverflows (readGroup g s).lov (readGroup g s).lval = false) :
      EngineMove s (storeValue n (readGroup g s))
  /-- R127: the outermost packet is complete -/
  | parseEnd {n : Node} (hs : s.status = .parse) (hp : s.psub = .ret) (hn : s.node[s.cur]? = some n) (hf : s.pstk = []) :
      EngineMove s { s with
        node := s.node.set s.cur { n with size := s.pos - n.start },
        consumed := s.pos, eptr := 0, estk := [], esub := .fetch, status := .eval }
  /-- R127: the parent is complete too -/
  | lastChild {n : Node} {f : PFrame} {rest : List PFrame} (hs : s.status = .parse) (hp : s.psub = .ret)
      (hn : s.node[s.cur]? = some n) (hf : s.pstk = f :: rest) (hr : f.rem - 1 = 0) :
      EngineMove s { s with
        node := s.node.set s.cur { n with size := s.pos - n.start }, cur := f.node, pstk := rest, psub := .ret }
  /-- R127: the next sibling begins -/
  | nextChild {n : Node} {f : PFrame} {rest : List PFrame} (hs : s.status = .parse) (hp : s.psub = .ret)
      (hn : s.node[s.cur]? = some n) (hf : s.pstk = f :: rest) (hr : f.rem - 1 ≠ 0) :
      EngineMove s { s with
        node := s.node.set s.cur { n with size := s.pos - n.start },
        pstk := { f with rem := f.rem - 1 } :: rest, psub := .hdr }
  /-- R130 -/
  | fetchLiteral {n : Node} (hs : s.status = .eval) (he : s.esub = .fetch) (hn : s.node[s.eptr]? = some n)
      (ht : n.tid = .lit) : EngineMove s { s with val := n.val, eptr := s.eptr + 1, esub := .fold }
  /-- R131: an operator without children -/
  | fetchEmpty {n : Node} {o : Op} (hs : s.status = .eval) (he : s.esub = .fetch) (hn : s.node[s.eptr]? = some n)
      (ht : n.tid = .op o) (hc : n.cnt = 0) : EngineMove s (raiseFault .emptyOperator n.start s)
  /-- R131 -/
  | fetchOperator {n : Node} {o : Op} (hs : s.status = .eval) (he : s.esub = .fetch) (hn : s.node[s.eptr]? = some n)
      (ht : n.tid = .op o) (hc : n.cnt ≠ 0) :
      EngineMove s { s with estk := ⟨o, n.cnt.toNat, 0, false⟩ :: s.estk, eptr := s.eptr + 1, esub := .fetch }
  /-- R133: the operator is finished -/
  | foldLast {f : EFrame} {rest : List EFrame} (hs : s.status = .eval) (he : s.esub = .fold) (hf : s.estk = f :: rest)
      (hr : f.rem - 1 = 0) :
      EngineMove s { s with
        ovf := foldOvf (opReduction f.op) f s.val s.ovf, val := foldAcc (opReduction f.op) f s.val, estk := rest,
        esub := .fold }
  /-- R133: its next child is fetched -/
  | foldMore {f : EFrame} {rest : List EFrame} (hs : s.status = .eval) (he : s.esub = .fold) (hf : s.estk = f :: rest)
      (hr : f.rem - 1 ≠ 0) :
      EngineMove s { s with
        ovf := foldOvf (opReduction f.op) f s.val s.ovf,
        estk := { f with acc := foldAcc (opReduction f.op) f s.val, rem := f.rem - 1, seeded := true } :: rest,
        esub := .fetch }
  /-- R132 -/
  | finish (hs : s.status = .eval) (he : s.esub = .fold) (hf : s.estk = []) : EngineMove s (finishRun s)

/-- R123, R124: a HDR step is one of the moves of the header. -/
theorem engineMove_of_hdr (hs : s.status = .parse) (hp : s.psub = .hdr) (h : engineStep s = .next t) : EngineMove s t := by
  rcases hd : decode (s.window 7) with e | ⟨i, rest⟩
  · cases e with
    | typeDoesNotFit =>
      cases (engineStep_typeCut hs hp hd).symm.trans h
      exact .typeCut hs hp hd
    | countDoesNotFit =>
      cases (engineStep_countCut hs hp hd).symm.trans h
      exact .countCut hs hp hd
  · rw [engineStep_header hs hp hd] at h
    rcases exec_forms i with ⟨o, c, rfl⟩ | rfl | ⟨hi, hex⟩
    · simp only [exec_opInstr, operatorStep, hs, hp] at h
      obtain ⟨rfl, ht⟩ | ⟨hc, ht⟩ := headerOperator_cases o c s <;> cases ht.symm.trans (Host.Outcome.next.inj h)
      · exact .leaf hs hp hd
      · exact .descend hs hp hd hc
    · simp only [exec, execLit, literalStep, hs, hp] at h
      cases h
      exact .literal hs hp hd
    · obtain ⟨-, -, rfl⟩ := illegalStep_cases (hex s ▸ h)
      exact .illegal hs hp hd hi

theorem engineMove_of_grp (hs : s.status = .parse) (hp : s.psub = .grp) (h : engineStep s = .next t) : EngineMove s t := by
  rw [engineStep_grp hs hp] at h
  obtain ⟨hg, rfl⟩ | ⟨g, hg, ⟨hm, rfl⟩ | ⟨hm, hfin⟩⟩ := groupStep_cases h
  · exact .groupCut hs hp hg
  · exact .groupMore hs hp hg hm
  · obtain ⟨n, hn, ⟨ho, rfl⟩ | ⟨ho, rfl⟩⟩ := finishLiteral_cases hfin
    · exact .groupOverflow hs hp hg hm hn ho
    · exact .groupFinal hs hp hg hm hn ho

theorem engineMove_of_ret (hs : s.status = .parse) (hp : s.psub = .ret) (h : engineStep s = .next t) : EngineMove s t := by
  rw [engineStep_ret hs hp] at h
  obtain ⟨n, hn, ⟨hf, rfl⟩ | ⟨f, rest, hf, ⟨hr, rfl⟩ | ⟨hr, rfl⟩⟩⟩ := returnStep_cases h
  · exact .parseEnd hs hp hn hf
  · exact .lastChild hs hp hn hf hr
  · exact .nextChild hs hp hn hf hr

theorem engineMove_of_fetch (hs : s.status = .eval) (he : s.esub = .fetch) (h : engineStep s = .next t) :
    EngineMove s t := by
  cases hn : s.node[s.eptr]? with
  | none => simp [engineStep_fetch_none hs he hn] at h
  | some n =>
    rcases ht : n.tid with o | _
    · rw [engineStep_fetch_op hs he hn ht] at h
      obtain ⟨n', hn', ⟨hc, rfl⟩ | ⟨hc, rfl⟩⟩ := fetchOperator_cases h <;> cases hn.symm.trans hn'
      · exact .fetchEmpty hs he hn ht hc
      · exact .fetchOperator hs he hn ht hc
    · rw [engineStep_fetch_lit hs he hn ht] at h
      obtain ⟨n', hn', rfl⟩ := fetchLiteral_cases h
      cases hn.symm.trans hn'
      exact .fetchLiteral hs he hn ht

theorem engineMove_of_fold (hs : s.status = .eval) (he : s.esub = .fold) (h : engineStep s = .next t) :
    EngineMove s t := by
  cases hf : s.estk with
  | nil =>
    cases (engineStep_finish hs he hf).symm.trans h
    exact .finish hs he hf
  | cons f rest =>
    rw [engineStep_fold hs he hf] at h
    obtain ⟨f', rest', hf', ⟨hr, rfl⟩ | ⟨hr, rfl⟩⟩ := foldStep_cases h <;> cases hf.symm.trans hf'
    · exact .foldLast hs he hf hr
    · exact .foldMore hs he hf hr

/-- Every engine step is one of the moves: the case split of R122 on the status and the sub-state. -/
theorem engineMove_of_engineStep (h : engineStep s = .next t) : EngineMove s t := by
  by_cases hs : s.status = .parse
  · cases hp : s.psub with
    | hdr => exact engineMove_of_hdr hs hp h
    | grp => exact engineMove_of_grp hs hp h
    | ret => exact engineMove_of_ret hs hp h
  · by_cases he : s.status = .eval
    · cases hf : s.esub with
      | fetch => exact engineMove_of_fetch he hf h
      | fold => exact engineMove_of_fold he hf h
    · cases (engineStep_rest hs he).symm.trans h
      exact .rest hs he

/-- Every move is the engine's step. -/
theorem EngineMove.engineStep_eq (h : EngineMove s t) : engineStep s = .next t := by
  cases h with
  | rest hp he => exact engineStep_rest hp he
  | typeCut hs hp hd => exact engineStep_typeCut hs hp hd
  | countCut hs hp hd => exact engineStep_countCut hs hp hd
  | @illegal i _ hs hp hd hi =>
    have hstep : exec i s = illegalStep s := by
      cases i with
      | sum | product | min | max | lit => cases hi
      | illegal5 | illegal6 | illegal7 => rfl
    simp [engineStep_header hs hp hd, hstep, illegalStep, headerIllegal, hs, hp]
  | literal hs hp hd =>
    simp [engineStep_header hs hp hd, exec, execLit, literalStep, hs, hp, headerLiteral, appendNode, State.ncnt]
  | leaf hs hp hd =>
    simp [engineStep_header hs hp hd, exec_opInstr, operatorStep, hs, hp, headerOperator, appendNode, State.ncnt]
  | descend hs hp hd hc =>
    have hc' : ¬ _ = 0#4 := hc
    simp [engineStep_header hs hp hd, exec_opInstr, operatorStep, hs, hp, headerOperator, appendNode, State.ncnt, hc']
  | groupCut hs hp hg => simp [engineStep_grp hs hp, groupStep, hg]
  | groupMore hs hp hg hm => simp [engineStep_grp hs hp, groupStep, hg, hm, readGroup]
  | groupOverflow hs hp hg hm hn ho =>
    simp only [readGroup] at ho
    simp [engineStep_grp hs hp, groupStep, finishLiteral, State.nodeAt, hg, hm, hn, ho, readGroup]
  | groupFinal hs hp hg hm hn ho =>
    simp only [readGroup] at ho
    simp [engineStep_grp hs hp, groupStep, finishLiteral, State.nodeAt, hg, hm, hn, ho, readGroup, storeValue, setNode]
  | parseEnd hs hp hn hf => simp [engineStep_ret hs hp, returnStep, State.nodeAt, hn, hf, setNode]
  | lastChild hs hp hn hf hr => simp [engineStep_ret hs hp, returnStep, State.nodeAt, hn, hf, hr, setNode]
  | nextChild hs hp hn hf hr => simp [engineStep_ret hs hp, returnStep, State.nodeAt, hn, hf, hr, setNode]
  | fetchLiteral hs he hn ht =>
    simp [engineStep_fetch_lit hs he hn ht, Machine.fetchLiteral, State.nodeAt, hn]
  | fetchEmpty hs he hn ht hc =>
    simp [engineStep_fetch_op hs he hn ht, Machine.fetchOperator, State.nodeAt, hn, hc]
  | fetchOperator hs he hn ht hc =>
    have hc' : ¬ _ = 0#4 := hc
    simp [engineStep_fetch_op hs he hn ht, Machine.fetchOperator, State.nodeAt, hn, hc']
  | foldLast hs he hf hr => simp [engineStep_fold hs he hf, foldStep, hf, hr]
  | foldMore hs he hf hr => simp [engineStep_fold hs he hf, foldStep, hf, hr]
  | finish hs he hf => exact engineStep_finish hs he hf

/-- R122: the engine's step answers `t` exactly when a rule of 42_sequencer leads there. -/
theorem engineStep_eq_next_iff : engineStep s = .next t ↔ EngineMove s t :=
  ⟨engineMove_of_engineStep, EngineMove.engineStep_eq⟩

/-- One access of the host from `s`: a constructor per outcome (R17, R24, R25, R46, R180). -/
inductive HostMove (s : State) : State → Prop
  /-- a dropped write, or one that does nothing -/
  | drop : HostMove s s
  | start (hs : s.status = .idle) : HostMove s (initRun .parse s)
  | clear : HostMove s (initRun .idle s)
  | reset : HostMove s (applyReset s)
  | len {v : Nat} (hs : s.status = .idle) (hv : v ≤ Config.maxBits) : HostMove s { s with len := v }
  | cell {p : Nat} (b : Bool) (hs : s.status = .idle) (hp : p < Config.maxBits) :
      HostMove s { s with bits := writeCell s.bits p b }
  | byte (k : Nat) (v : BitVec 8) (hs : s.status = .idle) : HostMove s { s with bits := writeByteCells k v s.bits }

theorem hostMove_writeCmd (v : Nat) (s : State) : HostMove s (writeCmd v s) := by
  unfold writeCmd commandStart commandClear
  split
  · split
    · exact .start ‹_›
    · exact .drop
  · exact .clear
  · exact .drop

theorem hostMove_writeReg (r : HostReg) (v : Nat) (s : State) : HostMove s (writeReg r v s) := by
  cases r with
  | cmd => exact hostMove_writeCmd v s
  | len =>
    rw [writeReg, writeLen]
    split
    · exact .len (‹_ ∧ _›).1 (‹_ ∧ _›).2
    · exact .drop
  | status | err | epos | result | consumed | flags => exact .drop

theorem hostMove_of_writeBit {p : Nat} {b : Bool} (h : writeBit p b s = .next t) : HostMove s t := by
  unfold writeBit at h
  split at h
  · cases h
    exact .drop
  · rename_i hs
    split at h <;> cases h
    exact .cell b (not_not.mp hs) ‹_›

theorem hostMove_of_writeByte {k : Nat} {v : BitVec 8} (h : writeByte k v s = .next t) : HostMove s t := by
  unfold writeByte at h
  split at h
  · cases h
    exact .drop
  · rename_i hs
    split at h <;> cases h
    exact .byte k v (not_not.mp hs)

/-- Every access that is answered with a next state is one of the host's moves. -/
theorem hostMove_of_perform {a : HostAccess} (h : perform a s = .next t) : HostMove s t := by
  cases a with
  | writeReg r v =>
    cases h
    exact hostMove_writeReg r v s
  | writeBit p b => exact hostMove_of_writeBit h
  | writeByte k v => exact hostMove_of_writeByte h
  | reset =>
    cases h
    exact .reset
  | engine =>
    cases h
    exact .drop

/-- R11: a step is a move of the engine or of the host, after the entry that it takes has left the agenda. -/
theorem step_cases (h : step s = .next t) :
    ∃ later, EngineMove { s with agenda := later } t ∨ HostMove { s with agenda := later } t := by
  unfold step at h
  split at h
  · exact ⟨s.agenda, .inl (engineMove_of_engineStep h)⟩
  · exact ⟨_, .inl (engineMove_of_engineStep h)⟩
  · exact ⟨_, .inr (hostMove_of_perform h)⟩

/-- With no host access to come a step is a move of the engine. -/
theorem step_eq_next_iff (ha : s.agenda = []) : step s = .next t ↔ EngineMove s t := by
  rw [← engineStep_eq_next_iff, step, ha]

end Sys2Proof.Machine
end

section
/-! PROOF. What every step of STATUS, POS, OVF and the input may be, read off the moves (R13, R15, R18, R24, R25). -/
namespace Sys2Proof.Machine

open Sys2Proof

variable {s t : State}

@[simp] theorem statusMayBecome_self (a : Status) : statusMayBecome a a = true := by
  cases a <;> rfl

@[simp] theorem statusMayBecome_idle (a : Status) : statusMayBecome a .idle = true := by
  cases a <;> rfl

theorem EngineMove.statusMayBecome (h : EngineMove s t) : statusMayBecome s.status t.status = true := by
  cases h with
  | typeCut hs | countCut hs | illegal hs | groupCut hs | groupOverflow hs => simp [hs, Machine.statusMayBecome]
  | parseEnd hs => simp [hs, Machine.statusMayBecome]
  | fetchEmpty hs => simp [hs, Machine.statusMayBecome]
  | finish hs => simp [hs, Machine.statusMayBecome]
  | _ => exact statusMayBecome_self _

theorem HostMove.statusMayBecome (h : HostMove s t) : statusMayBecome s.status t.status = true := by
  cases h with
  | start hs => simp [hs, Machine.statusMayBecome]
  | clear | reset => exact statusMayBecome_idle _
  | drop | len | cell | byte => exact statusMayBecome_self _

/-- R25, R54: what the engine leaves alone, with the agenda and the count of resets, which are no registers of the block. -/
structure SameInput (s t : State) : Prop where
  bits : t.bits = s.bits
  len : t.len = s.len
  agenda : t.agenda = s.agenda
  powerOn : t.powerOn = s.powerOn

theorem SameInput.trans {u : State} (h : SameInput s t) (h' : SameInput t u) : SameInput s u :=
  ⟨h'.bits.trans h.bits, h'.len.trans h.len, h'.agenda.trans h.agenda, h'.powerOn.trans h.powerOn⟩

theorem SameInput.bit (h : SameInput s t) : t.bit = s.bit := by
  funext p
  rw [State.bit, State.bit, h.bits, h.powerOn]

theorem SameInput.stream (h : SameInput s t) : t.stream = s.stream := by
  rw [State.stream, State.stream, State.slice, State.slice, h.len, h.bit]

theorem EngineMove.sameInput (h : EngineMove s t) : SameInput s t := by
  cases h <;> exact ⟨rfl, rfl, rfl, rfl⟩

/-! Runs: the engine's moves in a row. -/

/-- `k` moves of the engine lead from `s` to `t`. -/
inductive EngineRun : Nat → State → State → Prop
  | refl (s : State) : EngineRun 0 s s
  | head {k : Nat} {s u t : State} (hm : EngineMove s u) (hr : EngineRun k u t) : EngineRun (k + 1) s t

theorem EngineRun.single (h : EngineMove s t) : EngineRun 1 s t := .head h (.refl t)

theorem EngineRun.trans {j k : Nat} {u : State} (h : EngineRun j s u) (h' : EngineRun k u t) :
    EngineRun (j + k) s t := by
  induction h with
  | refl => rwa [Nat.zero_add]
  | head hm _ ih =>
    rw [Nat.add_right_comm]
    exact .head hm (ih h')

theorem EngineRun.sameInput {k : Nat} (h : EngineRun k s t) : SameInput s t := by
  induction h with
  | refl => exact ⟨rfl, rfl, rfl, rfl⟩
  | head hm _ ih => exact hm.sameInput.trans ih

theorem coreRun_succ_eq_next_iff (M : Host.Core) (k : Nat) (s t : M.State) : M.run (k + 1) s = .next t ↔
    ∃ u, M.step s = .next u ∧ M.run k u = .next t := by
  rw [Host.Core.run]
  cases M.step s <;> simp

theorem run_succ_eq_next_iff (k : Nat) : Sys2Proof.core.run (k + 1) s = .next t ↔
    ∃ u, step s = .next u ∧ Sys2Proof.core.run k u = .next t :=
  coreRun_succ_eq_next_iff Sys2Proof.core k s t

/-- With no host access to come a run of the machine is a run of the engine. -/
theorem run_eq_next_iff {k : Nat} (ha : s.agenda = []) :
    Sys2Proof.core.run k s = .next t ↔ EngineRun k s t := by
  constructor
  · intro h
    induction k generalizing s with
    | zero =>
      cases h
      exact .refl _
    | succ k ih =>
      obtain ⟨u, hu, hk⟩ := (run_succ_eq_next_iff k).mp h
      have hm : EngineMove s u := (step_eq_next_iff ha).mp hu
      exact .head hm (ih (hm.sameInput.agenda.trans ha) hk)
  · intro h
    induction h with
    | refl => rfl
    | head hm _ ih =>
      exact (run_succ_eq_next_iff _).mpr ⟨_, (step_eq_next_iff ha).mpr hm, ih (hm.sameInput.agenda.trans ha)⟩

/-! The cursor (R13). -/

@[simp] theorem headerSize_opInstr (o : Op) (c : BitVec 4) : (opInstr o c).headerSize = 7 := by
  cases o <;> rfl

theorem EngineMove.pos_of_hdr (h : EngineMove s t) (hs : s.status = .parse) (hp : s.psub = .hdr) (hf : t.status ≠ .fault) :
    ∃ i rest, decode (s.window 7) = .ok (i, rest) ∧ t.pos = s.pos + i.headerSize ∧
      (i = .lit ∧ i.headerSize = 3 ∨ ∃ o c, i = opInstr o c ∧ i.headerSize = 7) := by
  cases h with
  | literal _ _ hd => exact ⟨.lit, _, hd, rfl, .inl ⟨rfl, rfl⟩⟩
  | leaf _ _ hd | descend _ _ hd => exact ⟨_, _, hd, by simp, .inr ⟨_, _, rfl, headerSize_opInstr _ _⟩⟩
  | _ => simp_all

theorem EngineMove.pos_of_grp (h : EngineMove s t) (hs : s.status = .parse) (hp : s.psub = .grp)
    (hf : t.status ≠ .fault) : t.pos = s.pos + 5 := by
  cases h with
  | groupMore | groupFinal => rfl
  | _ => simp_all

theorem EngineMove.pos_of_ret (h : EngineMove s t) (hs : s.status = .parse) (hp : s.psub = .ret) : t.pos = s.pos := by
  cases h with
  | parseEnd | lastChild | nextChild => rfl
  | _ => simp_all

/-! The overflow flag (R15). -/

theorem EngineMove.ovf_cases (h : EngineMove s t) (hf : t.status ≠ .fault) :
    t.ovf = s.ovf ∨ (s.status = .eval ∧ s.esub = .fold ∧ ∃ f rest, s.estk = f :: rest ∧
      t.ovf = foldOvf (opReduction f.op) f s.val s.ovf) := by
  cases h with
  | foldLast hs he hk | foldMore hs he hk => exact .inr ⟨hs, he, _, _, hk, rfl⟩
  | typeCut | countCut | illegal | groupCut | groupOverflow | fetchEmpty => exact absurd rfl hf
  | _ => exact .inl rfl

@[simp] theorem foldOvf_true (r : Reduction) (f : EFrame) (val : Word) : foldOvf r f val true = true := by
  simp [foldOvf]

/-- R106, R107: MIN and MAX never overflow. -/
theorem foldOvf_false_eq_true {f : EFrame} {val : Word} (h : foldOvf (opReduction f.op) f val false = true) :
    f.seeded = true ∧ (f.op = .sum ∨ f.op = .product) := by
  obtain ⟨hseed, hov⟩ : f.seeded = true ∧ (opReduction f.op).overflow f.acc val = true := by
    simpa [foldOvf] using h
  refine ⟨hseed, ?_⟩
  cases ho : f.op with
  | sum => exact .inl rfl
  | product => exact .inr rfl
  | min | max => simp [ho, opReduction, minReduction, maxReduction] at hov

/-! The capacity (R24, R42). -/

theorem lt_maxBits_writeByteCells {m : List (Nat × Bool)} (k : Nat) (v : BitVec 8)
    (h : ∀ c ∈ m, c.1 < Config.maxBits) : ∀ c ∈ writeByteCells k v m, c.1 < Config.maxBits :=
  writeByteCells_induction (P := fun m => ∀ c ∈ m, c.1 < Config.maxBits) k v m h fun _m _ _b hm hlt c hc =>
    (mem_writeCell hc).elim (fun heq => heq ▸ hlt) (hm c)

theorem HostMove.withinCapacity (h : HostMove s t) (hc : WithinCapacity s) : WithinCapacity t := by
  obtain ⟨hlen, hbits⟩ := hc
  cases h with
  | drop | start | clear => exact ⟨hlen, hbits⟩
  | reset => exact ⟨Nat.zero_le _, fun _ hc => absurd hc (List.not_mem_nil)⟩
  | len _ hv => exact ⟨hv, hbits⟩
  | cell b _ hp => exact ⟨hlen, fun c hc => (mem_writeCell hc).elim (fun heq => heq ▸ hp) (hbits c)⟩
  | byte k v => exact ⟨hlen, lt_maxBits_writeByteCells k v hbits⟩

theorem EngineMove.withinCapacity (h : EngineMove s t) (hc : WithinCapacity s) : WithinCapacity t := by
  have hin := h.sameInput
  exact ⟨hin.len ▸ hc.len_le, hin.bits ▸ hc.bits_lt⟩

end Sys2Proof.Machine

open Sys2Proof.Machine in
/-- Settles O16: the engine's moves and the host's, each with its own transition. -/
theorem statusTransitions : Obligations.StatusTransitions := by
  intro s t h
  obtain ⟨_, hmove | hmove⟩ := step_cases h
  · exact hmove.statusMayBecome
  · exact hmove.statusMayBecome

open Sys2Proof.Machine in
/-- Settles O11: the engine leaves LEN and BITS alone, and the host writes them within MAXBITS. -/
theorem stepKeepsCapacity : Obligations.StepKeepsCapacity := by
  intro s t hc h
  obtain ⟨_, hmove | hmove⟩ := step_cases h
  · exact hmove.withinCapacity ⟨hc.len_le, hc.bits_lt⟩
  · exact hmove.withinCapacity ⟨hc.len_le, hc.bits_lt⟩

open Sys2Proof.Machine in
/-- Settles O24: the moves of each parse sub-state, none of them a fault. -/
theorem cursorGrowsByTheBitsRead : Obligations.CursorGrowsByTheBitsRead := by
  intro s t ha hs h hf
  have hmove : EngineMove s t := (step_eq_next_iff ha).mp h
  exact ⟨fun hp => hmove.pos_of_hdr hs hp hf, fun hp => hmove.pos_of_grp hs hp hf, hmove.pos_of_ret hs⟩

open Sys2Proof.Machine in
/-- Settles O25: only a fold step writes OVF, and there an old 1 stays and a new 1 is a SUM's or a PRODUCT's. -/
theorem overflowFlagIsSticky : Obligations.OverflowFlagIsSticky := by
  intro s t ha h hf
  obtain hkeep | ⟨hs, he, f, rest, hk, hovf⟩ := ((step_eq_next_iff ha).mp h).ovf_cases hf
  · exact ⟨fun h1 => hkeep.trans h1, fun h0 h1 => by simp [hkeep, h0] at h1⟩
  · refine ⟨fun h1 => by rw [hovf, h1, foldOvf_true], fun h0 h1 => ⟨hs, he, f, rest, hk, ?_⟩⟩
    exact foldOvf_false_eq_true (by rw [← h0, ← hovf, h1])

open Sys2Proof.Machine in
/-- Settles O26: each move of the engine leaves the input alone, so a run of them does. -/
theorem engineNeverWritesTheInput : Obligations.EngineNeverWritesTheInput := by
  intro k s t ha h
  have hin : SameInput s t := ((run_eq_next_iff ha).mp h).sameInput
  exact ⟨hin.bits, hin.len, hin.agenda.trans ha, hin.powerOn, hin.stream⟩
end

section
/-! PROOF. The invariant of the machine: it holds after reset and every step keeps it. -/
namespace Sys2Proof.Machine

open Sys2Proof

variable {s t : State}

/-! What is due on a pre-order list (R35). -/

theorem dueAfter_append {d : Nat} {ns : List Node} {e : Nat} (ms : List Node) (h : dueAfter d ns = some e) :
    dueAfter d (ns ++ ms) = dueAfter e ms := by
  induction ns generalizing d with
  | nil =>
    cases h
    rfl
  | cons n ns ih =>
    cases d with
    | zero => cases h
    | succ d => exact ih h

@[simp] theorem dueAfter_succ_singleton (d : Nat) (n : Node) : dueAfter (d + 1) [n] = some (d + announced n) := rfl

/-- What is due depends on what the headers announce alone. -/
theorem dueAfter_set {d i : Nat} {ns : List Node} {n m : Node} (hn : ns[i]? = some n) (hm : announced m = announced n) :
    dueAfter d (ns.set i m) = dueAfter d ns := by
  induction ns generalizing d i with
  | nil => rfl
  | cons a ns ih =>
    cases d with
    | zero => cases i <;> rfl
    | succ d =>
      cases i with
      | zero =>
        cases hn
        simp [dueAfter, hm]
      | succ i => exact ih hn

@[simp] theorem dueParse_nil : dueParse [] = 0 := rfl
@[simp] theorem dueParse_cons (f : PFrame) (st : List PFrame) : dueParse (f :: st) = f.rem - 1 + dueParse st := rfl
@[simp] theorem dueEval_nil : dueEval [] = 0 := rfl
@[simp] theorem dueEval_cons (f : EFrame) (st : List EFrame) : dueEval (f :: st) = f.rem - 1 + dueEval st := rfl

@[simp] theorem announced_lit (c : BitVec 4) (v : Word) (p z : Nat) : announced ⟨.lit, c, v, p, z⟩ = 0 := rfl
@[simp] theorem announced_op (o : Op) (c : BitVec 4) (v : Word) (p z : Nat) : announced ⟨.op o, c, v, p, z⟩ = c.toNat :=
  rfl

/-- A property of every entry outlives the replacement of one. -/
theorem forall_mem_set {α : Type} {P : α → Prop} {l : List α} {i : Nat} {a : α} (hl : ∀ x ∈ l, P x) (ha : P a) :
    ∀ x ∈ l.set i a, P x := fun x hx =>
  (List.mem_or_eq_of_mem_set hx).elim (hl x) (fun h => h ▸ ha)

/-- R64: the child count of an operator that has children. -/
theorem count_range {c : BitVec 4} (h : c ≠ 0) : 1 ≤ c.toNat ∧ c.toNat ≤ 15 :=
  ⟨Nat.one_le_iff_ne_zero.mpr fun h0 => h (BitVec.eq_of_toNat_eq h0), Nat.le_of_lt_succ c.isLt⟩

/-! The arithmetic of a fold step keeps a value that is not negative, unless it overflows (R110). -/

theorem toInt_wrapWord_of_leavesRange_false {e : Int} (h : leavesRange e = false) : (wrapWord e).toInt = e := by
  rw [leavesRange, decide_eq_false_iff_not, not_not] at h
  exact h.symm

theorem nonNeg_wrapWord {e : Int} (he : 0 ≤ e) (h : leavesRange e = false) : NonNeg (wrapWord e) := by
  rwa [NonNeg, toInt_wrapWord_of_leavesRange_false h]

theorem opReduction_nonNeg {o : Op} {a b : Word} (ha : NonNeg a) (hb : NonNeg b)
    (h : (opReduction o).overflow a b = false) : NonNeg ((opReduction o).value a b) := by
  cases o with
  | sum => exact nonNeg_wrapWord (Int.add_nonneg ha hb) h
  | product => exact nonNeg_wrapWord (Int.mul_nonneg ha hb) h
  | min | max =>
    simp only [opReduction, minReduction, maxReduction]
    split
    · exact hb
    · exact ha

/-- R15: a fold that ends without OVF began without it and did not overflow. -/
theorem foldOvf_eq_false {r : Reduction} {f : EFrame} {val : Word} {ovf : Bool} (h : foldOvf r f val ovf = false) :
    ovf = false ∧ (f.seeded = true → r.overflow f.acc val = false) := by
  cases hs : f.seeded <;> simp_all [foldOvf]

theorem foldAcc_nonNeg {f : EFrame} {val : Word} (hval : NonNeg val) (hacc : f.seeded = true → NonNeg f.acc)
    (hov : f.seeded = true → (opReduction f.op).overflow f.acc val = false) :
    NonNeg (foldAcc (opReduction f.op) f val) := by
  rw [foldAcc]
  split
  · exact opReduction_nonNeg (hacc ‹_›) hval (hov ‹_›)
  · exact hval

/-- R126: a literal that is stored has its sign bit 0. -/
theorem nonNeg_of_literalOverflows_eq_false {lov : Bool} {w : Word} (h : literalOverflows lov w = false) : NonNeg w := by
  obtain ⟨-, hmsb⟩ : lov = false ∧ w.getLsbD 31 = false := by simpa [literalOverflows] using h
  have hmsb' : w.msb = false := by simpa [BitVec.msb_eq_getLsbD_last] using hmsb
  rw [NonNeg, BitVec.toInt_eq_toNat_of_msb hmsb']
  exact Int.natCast_nonneg _

/-! What a header or a group that is read says about LEN (R47). -/

theorem decode_ok_length {bs rest : List Bool} {i : Instr} (h : decode bs = .ok (i, rest)) : i.headerSize ≤ bs.length := by
  unfold decode at h
  split at h
  case h_1 | h_2 | h_3 | h_4 =>
    unfold decodeCount at h
    split at h <;> cases h
    simp [Instr.headerSize]
  case h_5 | h_6 | h_7 | h_8 =>
    cases h
    simp [Instr.headerSize]
  case h_9 => cases h

theorem decode_countCut_length {bs : List Bool} (h : decode bs = .error .countDoesNotFit) : 3 ≤ bs.length := by
  unfold decode at h
  split at h <;> simp_all

@[simp] theorem length_slice (s : State) (p n : Nat) : (s.slice p n).length = n := by
  simp [State.slice]

@[simp] theorem length_window (s : State) (n : Nat) : (s.window n).length = min n (s.len - s.pos) :=
  length_slice s _ _

theorem headerSize_le_of_decode {i : Instr} {rest : List Bool} (h : decode (s.window 7) = .ok (i, rest))
    (hpos : s.pos ≤ s.len) : s.pos + i.headerSize ≤ s.len := by
  have hlen := decode_ok_length h
  rw [length_window] at hlen
  omega

theorem five_le_of_group {g : Group} (h : s.group = some g) : 5 ≤ s.len - s.pos := by
  unfold State.group at h
  split at h
  · cases h
  · omega

/-! What the invariant of the registers comes to in each status. -/

/-- The result registers and the evaluation stack in IDLE and PARSE (R19 to R22, R29). -/
structure Cleared (s : State) : Prop where
  err : s.err = none
  epos : s.epos = 0
  result : s.result = 0
  consumed : s.consumed = 0
  ovf : s.ovf = false
  estk : s.estk = []

theorem cleared_initRun (st : Status) (s : State) : Cleared (initRun st s) := ⟨rfl, rfl, rfl, rfl, rfl, rfl⟩

theorem regInv_of_cleared (h : Cleared s) (hb : Memory.wf s.bits = true)
    (hs : s.status = .idle ∧ s.pstk = [] ∨ s.status = .parse) : RegInv s where
  bits_wf := hb
  err_iff := by rcases hs with ⟨hs, -⟩ | hs <;> simp [h.err, hs]
  err_kind := by simp [h.err]
  epos_zero _ := h.epos
  epos_le := by simp [h.epos]
  result_zero _ := h.result
  consumed_zero _ _ := h.consumed
  consumed_range hrun := by rcases hs with ⟨hs, -⟩ | hs <;> simp [hs] at hrun
  ovf_clear _ _ := h.ovf
  result_nonneg _ := by simp [h.result, NonNeg]
  pstk_nil hp _ := hs.elim And.right (fun hs => absurd hs hp)
  estk_nil _ _ := h.estk

theorem RegInv.err_eq_none (h : RegInv s) (hs : s.status ≠ .fault) : s.err = none := by
  cases he : s.err with
  | none => rfl
  | some k => exact absurd (h.err_iff.mp (by simp [he])) hs

theorem RegInv.cleared (h : RegInv s) (hs : s.status = .idle ∨ s.status = .parse) : Cleared s := by
  obtain ⟨hf, hd, he⟩ : s.status ≠ .fault ∧ s.status ≠ .done ∧ s.status ≠ .eval := by
    rcases hs with hs | hs <;> simp [hs]
  exact ⟨h.err_eq_none hf, h.epos_zero hf, h.result_zero hd, h.consumed_zero he hd, h.ovf_clear he hd, h.estk_nil he hf⟩

/-- The result registers and the parse stack in EVAL (R19 to R22, R28). -/
structure Evaluating (s : State) : Prop where
  err : s.err = none
  epos : s.epos = 0
  result : s.result = 0
  consumed : 7 ≤ s.consumed ∧ s.consumed ≤ s.len
  pstk : s.pstk = []

theorem regInv_of_evaluating (h : Evaluating s) (hb : Memory.wf s.bits = true) (hs : s.status = .eval) : RegInv s where
  bits_wf := hb
  err_iff := by simp [h.err, hs]
  err_kind := by simp [h.err]
  epos_zero _ := h.epos
  epos_le := by simp [h.epos]
  result_zero _ := h.result
  consumed_zero he _ := absurd hs he
  consumed_range _ := h.consumed
  ovf_clear he _ := absurd hs he
  result_nonneg _ := by simp [h.result, NonNeg]
  pstk_nil _ _ := h.pstk
  estk_nil he _ := absurd hs he

theorem RegInv.evaluating (h : RegInv s) (hs : s.status = .eval) : Evaluating s := by
  have hf : s.status ≠ .fault := by simp [hs]
  exact ⟨h.err_eq_none hf, h.epos_zero hf, h.result_zero (by simp [hs]), h.consumed_range (.inl hs),
    h.pstk_nil (by simp [hs]) hf⟩

/-- R158: the fault entry, for a kind that the engine raises and a position within LEN (R19, R151). -/
theorem regInv_raiseFault {k : FailureKind} {p : Nat} (hb : Memory.wf s.bits = true) (hk : k ≠ .invalidInput)
    (hp : p ≤ s.len) : RegInv (raiseFault k p s) where
  bits_wf := hb
  err_iff := by simp
  err_kind := by simp [hk]
  epos_zero h := absurd rfl h
  epos_le := hp
  result_zero _ := rfl
  consumed_zero _ _ := rfl
  consumed_range := by simp
  ovf_clear _ _ := rfl
  result_nonneg _ := by simp [NonNeg]
  pstk_nil _ h := absurd rfl h
  estk_nil _ h := absurd rfl h

/-- R132: DONE keeps CONSUMED, and RESULT is the value that the evaluation ends with. -/
theorem regInv_finishRun (h : Evaluating s) (hb : Memory.wf s.bits = true) (he : EvalInv s) (hk : s.estk = []) :
    RegInv (finishRun s) where
  bits_wf := hb
  err_iff := by simp [h.err]
  err_kind := by simp [h.err]
  epos_zero _ := h.epos
  epos_le := by simp [h.epos]
  result_zero hd := absurd rfl hd
  consumed_zero _ hd := absurd rfl hd
  consumed_range _ := h.consumed
  ovf_clear _ hd := absurd rfl hd
  result_nonneg := he.val_nonneg
  pstk_nil _ _ := h.pstk
  estk_nil _ _ := hk

theorem EngineMove.regInv (h : EngineMove s t) (hi : Inv s) : RegInv t := by
  have hb := hi.reg.bits_wf
  cases h with
  | rest => exact hi.reg
  | typeCut hs | illegal hs | groupCut hs => exact regInv_raiseFault hb (by simp) (hi.parse hs).pos_le
  | countCut hs _ hd =>
    have hlen := decode_countCut_length hd
    rw [length_window] at hlen
    exact regInv_raiseFault hb (by simp) (by omega)
  | groupOverflow hs _ _ _ hn =>
    have hp := hi.parse hs
    exact regInv_raiseFault hb (by simp) ((hp.starts _ (List.mem_of_getElem? hn)).trans hp.pos_le)
  | literal hs | leaf hs | descend hs | groupMore hs | groupFinal hs | lastChild hs | nextChild hs =>
    have hc := hi.reg.cleared (.inr hs)
    exact regInv_of_cleared ⟨hc.err, hc.epos, hc.result, hc.consumed, hc.ovf, hc.estk⟩ hb (.inr hs)
  | parseEnd hs hp _ hf =>
    have hc := hi.reg.cleared (.inr hs)
    have hpi := hi.parse hs
    obtain ⟨hcur, hpos⟩ := hpi.ret hp
    exact regInv_of_evaluating ⟨hc.err, hc.epos, hc.result, ⟨by dsimp only; omega, hpi.pos_le⟩, hf⟩ hb rfl
  | fetchLiteral hs | fetchOperator hs | foldLast hs | foldMore hs =>
    have hc := hi.reg.evaluating hs
    exact regInv_of_evaluating ⟨hc.err, hc.epos, hc.result, hc.consumed, hc.pstk⟩ hb hs
  | fetchEmpty hs _ hn =>
    exact regInv_raiseFault hb (by simp) ((hi.eval hs).starts _ (List.mem_of_getElem? hn))
  | finish hs _ hf => exact regInv_finishRun (hi.reg.evaluating hs) hb (hi.eval hs) hf

/-! The parse phase. -/

/-- R120: the parse phase as START leaves it: one packet is due, and nothing is stored. -/
theorem parseInv_initRun (s : State) : ParseInv (initRun .parse s) where
  pos_le := Nat.zero_le _
  starts := by simp
  vals := by simp
  val_zero := rfl
  frames := by simp
  depth := Nat.le_refl _
  due := rfl
  hdr _ := Nat.le_refl _
  grp h := by simp at h
  ret h := by simp at h

/-- R123, R124: an entry that a header appends at POS, its start. -/
theorem ParseInv.starts_append (h : ParseInv s) {n : Node} (hn : n.start = s.pos) (k : Nat) :
    ∀ m ∈ s.node ++ [n], m.start ≤ s.pos + k :=
  List.forall_mem_append.mpr
    ⟨fun m hm => (h.starts m hm).trans (Nat.le_add_right _ _), List.forall_mem_singleton.mpr (by omega)⟩

theorem ParseInv.vals_append (h : ParseInv s) {n : Node} (hn : n.val = 0) : ∀ m ∈ s.node ++ [n], NonNeg m.val :=
  List.forall_mem_append.mpr ⟨h.vals, List.forall_mem_singleton.mpr (by simp [hn, NonNeg])⟩

theorem ParseInv.frames_append (h : ParseInv s) (n : Node) :
    ∀ f ∈ s.pstk, 1 ≤ f.rem ∧ f.rem ≤ 15 ∧ f.node < (s.node ++ [n]).length := fun f hf => by
  have hfr := h.frames f hf
  simp only [List.length_append, List.length_singleton]
  omega

theorem ParseInv.due_append (h : ParseInv s) (hp : s.psub = .hdr) (n : Node) :
    dueAfter 1 (s.node ++ [n]) = some (dueParse s.pstk + announced n) := by
  have hdue := h.due
  rw [if_pos hp] at hdue
  rw [dueAfter_append [n] hdue, dueAfter_succ_singleton]

/-- R26: an entry replaced by one with the same header and start. -/
theorem ParseInv.node_set (h : ParseInv s) {n : Node} (hn : s.node[s.cur]? = some n) (m : Node)
    (hstart : m.start = n.start) (hval : NonNeg m.val) (hann : announced m = announced n) :
    (∀ a ∈ s.node.set s.cur m, a.start ≤ s.pos) ∧ (∀ a ∈ s.node.set s.cur m, NonNeg a.val) ∧
    dueAfter 1 (s.node.set s.cur m) = dueAfter 1 s.node :=
  ⟨forall_mem_set h.starts (hstart ▸ h.starts n (List.mem_of_getElem? hn)), forall_mem_set h.vals hval,
    dueAfter_set hn hann⟩

/-- R127: NODE with the size of the packet CUR recorded. -/
theorem ParseInv.node_sized (h : ParseInv s) {n : Node} (hn : s.node[s.cur]? = some n) (z : Nat) :
    (∀ a ∈ s.node.set s.cur { n with size := z }, a.start ≤ s.pos) ∧
    (∀ a ∈ s.node.set s.cur { n with size := z }, NonNeg a.val) ∧
    dueAfter 1 (s.node.set s.cur { n with size := z }) = dueAfter 1 s.node :=
  h.node_set hn _ rfl (h.vals n (List.mem_of_getElem? hn)) rfl

/-- R123, R124: an entry is appended, and its children are due next. -/
theorem EngineMove.parseInv_of_hdr (hm : EngineMove s t) (h : ParseInv s) (hs : s.status = .parse) (hp : s.psub = .hdr)
    (ht : t.status = .parse) : ParseInv t := by
  have hhdr := h.hdr hp
  have hdepth := h.depth
  cases hm with
  | literal _ _ hd =>
    have hfit := headerSize_le_of_decode hd h.pos_le
    exact {
      pos_le := hfit
      starts := h.starts_append rfl 3
      vals := h.vals_append rfl
      val_zero := h.val_zero
      frames := h.frames_append _
      depth := by simp; omega
      due := h.due_append hp _
      hdr := by simp
      grp := fun _ => by simp; omega
      ret := by simp }
  | leaf _ _ hd =>
    have hfit := headerSize_le_of_decode hd h.pos_le
    exact {
      pos_le := by simpa using hfit
      starts := h.starts_append rfl 7
      vals := h.vals_append rfl
      val_zero := h.val_zero
      frames := h.frames_append _
      depth := by simp; omega
      due := h.due_append hp _
      hdr := by simp
      grp := by simp
      ret := fun _ => by simp; omega }
  | @descend o c _ _ _ hd hc =>
    have hfit := headerSize_le_of_decode hd h.pos_le
    obtain ⟨hone, hle⟩ := count_range hc
    exact {
      pos_le := by simpa using hfit
      starts := h.starts_append rfl 7
      vals := h.vals_append rfl
      val_zero := h.val_zero
      frames := List.forall_mem_cons.mpr ⟨by simp; omega, h.frames_append _⟩
      depth := by simpa using hdepth
      due := by
        rw [h.due_append hp]
        simp
        omega
      hdr := fun _ => by simp; omega
      grp := by simp
      ret := by simp }
  | _ => simp_all

/-- R125, R126: the literal CUR, the last entry, is read group by group. -/
theorem EngineMove.parseInv_of_grp (hm : EngineMove s t) (h : ParseInv s) (hs : s.status = .parse) (hp : s.psub = .grp)
    (ht : t.status = .parse) : ParseInv t := by
  cases hm with
  | groupMore _ _ hg =>
    have hfit := five_le_of_group hg
    obtain ⟨hcur, hpos, hdepth⟩ := h.grp hp
    exact {
      pos_le := by simp [readGroup]; omega
      starts := fun n hn => (h.starts n hn).trans (Nat.le_add_right _ _)
      vals := h.vals
      val_zero := h.val_zero
      frames := h.frames
      depth := h.depth
      due := by simpa [readGroup, hp] using h.due
      hdr := by simp [readGroup]
      grp := fun _ => by simp [readGroup]; omega
      ret := by simp [readGroup] }
  | @groupFinal g n _ _ hg _ hn ho =>
    have hfit := five_le_of_group hg
    obtain ⟨hcur, hpos, hdepth⟩ := h.grp hp
    obtain ⟨hstarts, hvals, hdue⟩ := h.node_set hn { n with val := (readGroup g s).lval } rfl
      (nonNeg_of_literalOverflows_eq_false ho) rfl
    exact {
      pos_le := by simp [readGroup, storeValue]; omega
      starts := fun m hm => (hstarts m hm).trans (Nat.le_add_right _ _)
      vals := hvals
      val_zero := h.val_zero
      frames := by simpa [readGroup, storeValue] using h.frames
      depth := by simpa [readGroup, storeValue] using h.depth
      due := hdue.trans (by simpa [readGroup, storeValue, hp] using h.due)
      hdr := by simp [storeValue]
      grp := by simp [storeValue]
      ret := fun _ => by simp [readGroup, storeValue]; omega }
  | _ => simp_all

/-- R127: a packet is complete, and one child fewer is due. -/
theorem EngineMove.parseInv_of_ret (hm : EngineMove s t) (h : ParseInv s) (hs : s.status = .parse) (hp : s.psub = .ret)
    (ht : t.status = .parse) : ParseInv t := by
  cases hm with
  | @lastChild n f rest _ _ hn hf hr =>
    obtain ⟨hcur, hpos⟩ := h.ret hp
    obtain ⟨hstarts, hvals, hdue⟩ := h.node_sized hn (s.pos - n.start)
    obtain ⟨⟨-, -, hnode⟩, hframes⟩ := List.forall_mem_cons.mp (hf ▸ h.frames)
    have hdepth := h.depth
    exact {
      pos_le := h.pos_le
      starts := hstarts
      vals := hvals
      val_zero := h.val_zero
      frames := by simpa using hframes
      depth := by simp [hf] at hdepth ⊢; omega
      due := by
        rw [hdue, h.due]
        simp [hf, hr, hp]
      hdr := by simp
      grp := by simp
      ret := fun _ => by simp; omega }
  | @nextChild n f rest _ _ hn hf hr =>
    obtain ⟨hcur, hpos⟩ := h.ret hp
    obtain ⟨hstarts, hvals, hdue⟩ := h.node_sized hn (s.pos - n.start)
    obtain ⟨⟨_, hrem, hnode⟩, hframes⟩ := List.forall_mem_cons.mp (hf ▸ h.frames)
    exact {
      pos_le := h.pos_le
      starts := hstarts
      vals := hvals
      val_zero := h.val_zero
      frames := List.forall_mem_cons.mpr ⟨by simp; omega, by simpa using hframes⟩
      depth := by simpa [hf] using h.depth
      due := by
        rw [hdue, h.due]
        simp [hf, hp]
        omega
      hdr := fun _ => by simpa using hpos
      grp := by simp
      ret := by simp }
  | _ => simp_all

theorem EngineMove.status_parse (hm : EngineMove s t) (ht : t.status = .parse) : s.status = .parse := by
  cases hm with
  | typeCut | countCut | illegal | groupCut | groupOverflow | parseEnd | fetchEmpty | finish => cases ht
  | _ => exact ht

theorem EngineMove.parseInv (hm : EngineMove s t) (hi : Inv s) (ht : t.status = .parse) : ParseInv t := by
  have hs := hm.status_parse ht
  have h := hi.parse hs
  cases hp : s.psub with
  | hdr => exact hm.parseInv_of_hdr h hs hp ht
  | grp => exact hm.parseInv_of_grp h hs hp ht
  | ret => exact hm.parseInv_of_ret h hs hp ht

/-! The evaluation phase. -/

/-- R127: the parse phase leaves the tree in pre-order with every packet of it due. -/
theorem evalInv_parseEnd {n : Node} (h : ParseInv s) (hval : NonNeg s.val) (hp : s.psub = .ret)
    (hn : s.node[s.cur]? = some n) (hf : s.pstk = []) :
    EvalInv { s with
      node := s.node.set s.cur { n with size := s.pos - n.start },
      consumed := s.pos, eptr := 0, estk := [], esub := .fetch, status := .eval } := by
  obtain ⟨hstarts, hvals, hdue⟩ := h.node_sized hn (s.pos - n.start)
  obtain ⟨-, hpos⟩ := h.ret hp
  exact {
    starts := fun m hm => (hstarts m hm).trans h.pos_le
    vals := hvals
    packets := by simpa using hpos.trans h.pos_le
    eptr_le := Nat.zero_le _
    depth := Nat.le_refl _
    frames := by simp
    due := by
      simp only [dueEval_nil, if_true, List.drop_zero]
      rw [hdue, h.due]
      simp [hf, hp]
    val_nonneg := fun _ => hval
    acc_nonneg := by simp }

theorem EvalInv.due_fetch (h : EvalInv s) (he : s.esub = .fetch) {n : Node} (hn : s.node[s.eptr]? = some n) :
    dueAfter (dueEval s.estk + announced n) (s.node.drop (s.eptr + 1)) = some 0 := by
  obtain ⟨hlt, rfl⟩ := List.getElem?_eq_some_iff.mp hn
  have hdue := h.due
  rwa [if_pos he, List.drop_eq_getElem_cons hlt] at hdue

/-- R130, R131: the entry EPTR is no longer due, and its children are. -/
theorem EngineMove.evalInv_of_fetch (hm : EngineMove s t) (h : EvalInv s) (hs : s.status = .eval) (he : s.esub = .fetch)
    (ht : t.status = .eval) : EvalInv t := by
  cases hm with
  | @fetchLiteral n _ _ hn hlit =>
    have hlt := (List.getElem?_eq_some_iff.mp hn).1
    have hann : announced n = 0 := by simp [announced, hlit]
    exact {
      starts := h.starts
      vals := h.vals
      packets := h.packets
      eptr_le := hlt
      depth := h.depth.trans (Nat.le_succ _)
      frames := h.frames
      due := by simpa [hann] using h.due_fetch he hn
      val_nonneg := fun _ => h.vals n (List.mem_of_getElem? hn)
      acc_nonneg := h.acc_nonneg }
  | @fetchOperator n o _ _ hn hop hc =>
    have hlt := (List.getElem?_eq_some_iff.mp hn).1
    have hann : announced n = n.cnt.toNat := by simp [announced, hop]
    obtain ⟨hone, hle⟩ := count_range hc
    exact {
      starts := h.starts
      vals := h.vals
      packets := h.packets
      eptr_le := hlt
      depth := Nat.succ_le_succ h.depth
      frames := List.forall_mem_cons.mpr ⟨by simp; omega, h.frames⟩
      due := by
        have hdue := h.due_fetch he hn
        rw [hann] at hdue
        simp only [dueEval_cons, if_true]
        rwa [show n.cnt.toNat - 1 + dueEval s.estk + 1 = dueEval s.estk + n.cnt.toNat by omega]
      val_nonneg := h.val_nonneg
      acc_nonneg := fun ho => List.forall_mem_cons.mpr ⟨by simp, h.acc_nonneg ho⟩ }
  | _ => simp_all

/-- R133: one child fewer is due of the top frame. -/
theorem EngineMove.evalInv_of_fold (hm : EngineMove s t) (h : EvalInv s) (hs : s.status = .eval) (he : s.esub = .fold)
    (ht : t.status = .eval) : EvalInv t := by
  cases hm with
  | @foldLast f rest _ _ hf hr =>
    have hdepth := h.depth
    have hdue := h.due
    exact {
      starts := h.starts
      vals := h.vals
      packets := h.packets
      eptr_le := h.eptr_le
      depth := by simp [hf] at hdepth ⊢; omega
      frames := (List.forall_mem_cons.mp (hf ▸ h.frames)).2
      due := by simpa [hf, hr, he] using hdue
      val_nonneg := fun ho => by
        obtain ⟨hovf, hov⟩ := foldOvf_eq_false ho
        exact foldAcc_nonNeg (h.val_nonneg hovf) (List.forall_mem_cons.mp (hf ▸ h.acc_nonneg hovf)).1 hov
      acc_nonneg := fun ho => (List.forall_mem_cons.mp (hf ▸ h.acc_nonneg (foldOvf_eq_false ho).1)).2 }
  | @foldMore f rest _ _ hf hr =>
    obtain ⟨⟨_, hrem⟩, hframes⟩ := List.forall_mem_cons.mp (hf ▸ h.frames)
    exact {
      starts := h.starts
      vals := h.vals
      packets := h.packets
      eptr_le := h.eptr_le
      depth := by simpa [hf] using h.depth
      frames := List.forall_mem_cons.mpr ⟨by simp; omega, hframes⟩
      due := by
        have hdue := h.due
        simp only [hf, he, dueEval_cons] at hdue
        simp only [dueEval_cons, if_true]
        rwa [show f.rem - 1 - 1 + dueEval rest + 1 = f.rem - 1 + dueEval rest + 0 by omega]
      val_nonneg := fun ho => h.val_nonneg (foldOvf_eq_false ho).1
      acc_nonneg := fun ho => by
        obtain ⟨hovf, hov⟩ := foldOvf_eq_false ho
        obtain ⟨hacc, hrest⟩ := List.forall_mem_cons.mp (hf ▸ h.acc_nonneg hovf)
        exact List.forall_mem_cons.mpr ⟨fun _ => foldAcc_nonNeg (h.val_nonneg hovf) hacc hov, hrest⟩ }
  | _ => simp_all

theorem EngineMove.evalInv (hm : EngineMove s t) (hi : Inv s) (ht : t.status = .eval) : EvalInv t := by
  by_cases hs : s.status = .eval
  · cases he : s.esub with
    | fetch => exact hm.evalInv_of_fetch (hi.eval hs) hs he ht
    | fold => exact hm.evalInv_of_fold (hi.eval hs) hs he ht
  · cases hm with
    | parseEnd hp hr hn hf =>
      have h := hi.parse hp
      exact evalInv_parseEnd h (by simp [h.val_zero, NonNeg]) hr hn hf
    | typeCut | countCut | illegal | groupCut | groupOverflow | fetchEmpty | finish => cases ht
    | _ => exact absurd ht hs

theorem EngineMove.inv (h : EngineMove s t) (hi : Inv s) : Inv t := ⟨h.regInv hi, h.parseInv hi, h.evalInv hi⟩

/-! The host's accesses. -/

theorem inv_of_idle (hr : RegInv s) (hs : s.status = .idle) : Inv s :=
  ⟨hr, fun hp => by simp [hs] at hp, fun he => by simp [hs] at he⟩

/-- A write of LEN or BITS in IDLE, where no other register depends on them. -/
theorem inv_of_input_write (hi : Inv s) (hs : s.status = .idle) {m : List (Nat × Bool)} (hm : Memory.wf m = true)
    (v : Nat) : Inv { s with bits := m, len := v } := by
  have hc := hi.reg.cleared (.inl hs)
  have hpstk : s.pstk = [] := hi.reg.pstk_nil (by simp [hs]) (by simp [hs])
  have hcleared : Cleared { s with bits := m, len := v } := ⟨hc.err, hc.epos, hc.result, hc.consumed, hc.ovf, hc.estk⟩
  exact inv_of_idle (regInv_of_cleared hcleared hm (.inl ⟨hs, hpstk⟩)) hs

theorem inv_reset : Inv State.reset :=
  inv_of_idle (regInv_of_cleared ⟨rfl, rfl, rfl, rfl, rfl, rfl⟩ wf_reset (.inl ⟨rfl, rfl⟩)) rfl

theorem HostMove.inv (h : HostMove s t) (hi : Inv s) : Inv t := by
  have hb := hi.reg.bits_wf
  cases h with
  | drop => exact hi
  | start =>
    exact ⟨regInv_of_cleared (cleared_initRun _ s) hb (.inr rfl), fun _ => parseInv_initRun s, fun he => by cases he⟩
  | clear => exact inv_of_idle (regInv_of_cleared (cleared_initRun _ s) hb (.inl ⟨rfl, rfl⟩)) rfl
  | reset => exact inv_of_idle (regInv_of_cleared ⟨rfl, rfl, rfl, rfl, rfl, rfl⟩ wf_reset (.inl ⟨rfl, rfl⟩)) rfl
  | len hs => exact inv_of_input_write hi hs hb _
  | cell b hs => exact inv_of_input_write hi hs (wf_writeCell _ _ b hb) _
  | byte k v hs => exact inv_of_input_write hi hs (wf_writeByteCells k v _ hb) _

/-- The invariant says nothing of what is still to come on the agenda. -/
theorem Inv.with_agenda (hi : Inv s) (later : List HostAccess) : Inv { s with agenda := later } := by
  obtain ⟨⟨⟩, hparse, heval⟩ := hi
  exact ⟨by constructor <;> assumption, fun hs => by obtain ⟨⟩ := hparse hs; constructor <;> assumption,
    fun hs => by obtain ⟨⟩ := heval hs; constructor <;> assumption⟩

end Sys2Proof.Machine

open Sys2Proof.Machine in
/-- Settles O10: each move of the engine and of the host keeps the invariant, whatever is to come on the agenda. -/
theorem stepKeepsInvariant : Obligations.StepKeepsInvariant := by
  intro s t hi h
  obtain ⟨later, hmove | hmove⟩ := step_cases h
  · exact hmove.inv (hi.with_agenda later)
  · exact hmove.inv (hi.with_agenda later)

open Sys2Proof.Machine in
/-- Settles O9: IDLE with nothing loaded and every result register 0. -/
theorem resetMeetsInvariant : Obligations.ResetMeetsInvariant :=
  ⟨inv_reset, Nat.zero_le _, fun _ hc => absurd hc List.not_mem_nil⟩
end

section
/-! PROOF. The host's side: what reset leaves, what a write does and what a read shows (R16 to R25, R33, R46). -/
namespace Sys2Proof.Machine

open Sys2Proof

variable {s t : State}

theorem atReset_reset : AtReset State.reset := by
  constructor <;> intros <;> rfl

theorem atReset_applyReset (s : State) : AtReset (applyReset s) := by
  constructor <;> intros <;> rfl

/-- R16, R17: of a value written to CMD only the low two bits count. -/
theorem writeCmd_mod (v : Nat) (s : State) : writeCmd (v % 4) s = writeCmd v s := by
  simp [writeCmd]

/-! One cell of BITS (R25). -/

theorem bit_of_readCell {p : Nat} {b : Bool} (h : readCell s.bits p = some b) : s.bit p = b := by
  rw [State.bit, h]

theorem bit_with_bits {m : List (Nat × Bool)} {p : Nat} (h : readCell m p = readCell s.bits p) :
    State.bit { s with bits := m } p = s.bit p := by
  simp only [State.bit, h]

/-! One byte of BITS (R46). -/

/-- The cells of a byte write for the bits listed in `js`, from the byte's most significant. -/
def writeByteBits (k : Nat) (v : BitVec 8) (js : List Nat) (m : List (Nat × Bool)) : List (Nat × Bool) :=
  js.foldl (fun m j => if 8 * k + j < Config.maxBits then writeCell m (8 * k + j) (v.getMsbD j) else m) m

theorem writeByteCells_eq_writeByteBits (k : Nat) (v : BitVec 8) (m : List (Nat × Bool)) :
    writeByteCells k v m = writeByteBits k v (List.range 8) m := rfl

theorem writeByteBits_cons (k : Nat) (v : BitVec 8) (j : Nat) (js : List Nat) (m : List (Nat × Bool)) :
    writeByteBits k v (j :: js) m = writeByteBits k v js
      (if 8 * k + j < Config.maxBits then writeCell m (8 * k + j) (v.getMsbD j) else m) := rfl

theorem readCell_writeByteBits_other (k : Nat) (v : BitVec 8) (js : List Nat) (m : List (Nat × Bool)) {q : Nat}
    (h : ∀ j ∈ js, 8 * k + j = q → Config.maxBits ≤ q) : readCell (writeByteBits k v js m) q = readCell m q := by
  induction js generalizing m with
  | nil => rfl
  | cons j js ih =>
    obtain ⟨hj, hjs⟩ := List.forall_mem_cons.mp h
    rw [writeByteBits_cons, ih _ hjs]
    split
    · exact readCell_writeCell_other m _ (by omega)
    · rfl

theorem readCell_writeByteBits_same (k : Nat) (v : BitVec 8) {js : List Nat} (m : List (Nat × Bool)) {j : Nat}
    (hj : j ∈ js) (hlt : 8 * k + j < Config.maxBits) :
    readCell (writeByteBits k v js m) (8 * k + j) = some (v.getMsbD j) := by
  induction js generalizing m with
  | nil => cases hj
  | cons i js ih =>
    rw [writeByteBits_cons]
    by_cases hmem : j ∈ js
    · exact ih _ hmem
    · obtain rfl : j = i := (List.mem_cons.mp hj).resolve_right hmem
      rw [readCell_writeByteBits_other, if_pos hlt, readCell_writeCell_same]
      intro i hi heq
      obtain rfl : i = j := by omega
      exact absurd hi hmem

theorem readCell_writeByteCells_same (k : Nat) (v : BitVec 8) (m : List (Nat × Bool)) {j : Nat} (hj : j < 8)
    (hlt : 8 * k + j < Config.maxBits) : readCell (writeByteCells k v m) (8 * k + j) = some (v.getMsbD j) := by
  rw [writeByteCells_eq_writeByteBits]
  exact readCell_writeByteBits_same k v m (List.mem_range.mpr hj) hlt

theorem readCell_writeByteCells_other (k : Nat) (v : BitVec 8) (m : List (Nat × Bool)) {q : Nat}
    (h : q < 8 * k ∨ 8 * k + 8 ≤ q ∨ Config.maxBits ≤ q) : readCell (writeByteCells k v m) q = readCell m q := by
  rw [writeByteCells_eq_writeByteBits]
  refine readCell_writeByteBits_other k v _ m fun j hj heq => ?_
  have hj8 := List.mem_range.mp hj
  omega

@[simp] theorem length_bitsOf (n v : Nat) : (bitsOf n v).length = n := by
  induction n with
  | zero => rfl
  | succ n ih => simp [bitsOf, ih]

/-- R9, R41: the digits of a number, read back. -/
theorem bitsValue_bitsOf (n v : Nat) : bitsValue (bitsOf n v) = v % 2 ^ n := by
  induction n with
  | zero => simp [bitsOf, bitsValue, Nat.mod_one]
  | succ n ih =>
    rw [bitsOf, bitsValue, ih, length_bitsOf, Nat.mod_pow_succ, Nat.toNat_testBit]
    ring

/-- R46: the eight bits of a byte in stream order are its digits, most significant first. -/
theorem slice_eq_bitsOf {v : BitVec 8} {p : Nat} (h : ∀ j, j < 8 → s.bit (p + j) = v.getMsbD j) :
    s.slice p 8 = bitsOf 8 v.toNat := by
  refine List.ext_getElem (by simp [State.slice]) fun j hj _ => ?_
  have hj8 : j < 8 := by simpa [State.slice] using hj
  simp only [State.slice, List.getElem_map, List.getElem_range', one_mul, h j hj8, BitVec.getMsbD]
  interval_cases j <;> rfl

theorem hostReadByte_eq {v : BitVec 8} {k : Nat} (h : ∀ j, j < 8 → s.bit (8 * k + j) = v.getMsbD j) :
    hostReadByte s k = v := by
  rw [hostReadByte, State.field, slice_eq_bitsOf h, bitsValue_bitsOf, Nat.mod_eq_of_lt v.isLt, BitVec.ofNat_toNat,
    BitVec.setWidth_eq]

theorem writeByte_spec (s : State) (k : Nat) (v : BitVec 8) :
    let t := { s with bits := writeByteCells k v s.bits }
    (∀ j, j < 8 → 8 * k + j < Config.maxBits → State.bit t (8 * k + j) = v.getMsbD j) ∧
    (∀ q, q < 8 * k ∨ 8 * k + 8 ≤ q ∨ Config.maxBits ≤ q → State.bit t q = s.bit q) ∧
    (8 * k + 8 ≤ Config.maxBits → hostReadByte t k = v) := by
  intro t
  have hsame : ∀ j, j < 8 → 8 * k + j < Config.maxBits → State.bit t (8 * k + j) = v.getMsbD j :=
    fun j hj hlt => bit_of_readCell (readCell_writeByteCells_same k v s.bits hj hlt)
  exact ⟨hsame, fun q hq => bit_with_bits (readCell_writeByteCells_other k v s.bits hq),
    fun hfit => hostReadByte_eq fun j hj => hsame j hj (by omega)⟩

/-! Reads of the registers (R16). -/

theorem statusCode_eq_iff (a : Status) : (Status.code a = 0 ↔ a = .idle) ∧ (Status.code a = 1 ↔ a = .parse) ∧
    (Status.code a = 2 ↔ a = .eval) ∧ (Status.code a = 3 ↔ a = .done) ∧ (Status.code a = 4 ↔ a = .fault) := by
  cases a <;> decide

theorem errCode_eq_iff (e : Option FailureKind) : (errCode e = 0 ↔ e = none) ∧
    (errCode e = 2 ↔ e = some .invalidPacketType) ∧ (errCode e = 3 ↔ e = some .outOfBits) ∧
    (errCode e = 4 ↔ e = some .emptyOperator) ∧ (errCode e = 5 ↔ e = some .literalOverflow) := by
  rcases e with _ | k
  · decide
  · cases k <;> decide

theorem flagsRead_eq_one_iff (s : State) : s.flagsRead = 1 ↔ s.status = .done ∧ s.ovf = true := by
  cases hs : s.status <;> cases ho : s.ovf <;> simp [State.flagsRead, hs, ho]

theorem flagsRead_of_not_done (h : s.status ≠ .done) : s.flagsRead = 0 := if_neg h

/-- R187, R190: what the result registers hold during a run. -/
theorem RegInv.reads_of_run (h : RegInv s) (hs : s.status = .parse ∨ s.status = .eval) :
    s.result = 0 ∧ s.err = none ∧ s.epos = 0 ∧ (s.status = .parse → s.consumed = 0) := by
  rcases hs with hs | hs
  · have hc := h.cleared (.inr hs)
    exact ⟨hc.result, hc.err, hc.epos, fun _ => hc.consumed⟩
  · have hc := h.evaluating hs
    exact ⟨hc.result, hc.err, hc.epos, fun hp => by cases hs.symm.trans hp⟩

end Sys2Proof.Machine

open Sys2Proof.Machine in
/-- Settles O8: both states field by field, and the step that takes a reset off the agenda. -/
theorem resetValues : Obligations.ResetValues :=
  ⟨atReset_reset, fun s => ⟨rfl, atReset_applyReset s, fun later ha =>
    ⟨applyReset { s with agenda := later }, by rw [step, ha]; rfl, atReset_applyReset _, rfl⟩⟩⟩

open Sys2Proof.Machine in
/-- Settles O47, register by register. -/
theorem otherRegisterWrites : Obligations.OtherRegisterWrites := by
  intro s
  refine ⟨rfl, rfl, rfl, fun v => ⟨rfl, ?_, fun r hcmd hlen => ?_⟩⟩
  · exact congrArg Host.Outcome.next (writeCmd_mod v s).symm
  · cases r with
    | cmd => exact absurd rfl hcmd
    | len => exact absurd rfl hlen
    | status | err | epos | result | consumed | flags => rfl

open Sys2Proof.Machine in
/-- Settles O48: a read after the write of the cell. -/
theorem writeOfACell : Obligations.WriteOfACell := by
  intro s p b
  refine ⟨fun hs => by simp [perform, writeBit, hs], fun hs => ?_⟩
  split
  next hp =>
    refine ⟨{ s with bits := writeCell s.bits p b }, by simp [perform, writeBit, hs, hp], rfl, ?_, fun q hq => ?_⟩
    · rw [hostReadBit, if_pos hp, bit_of_readCell (readCell_writeCell_same s.bits p b)]
    · exact bit_with_bits (readCell_writeCell_other s.bits b hq)
  next hp => simp [perform, writeBit, hs, hp]

open Sys2Proof.Machine in
/-- Settles O49: a read after the write of the byte's cells. -/
theorem writeOfAByte : Obligations.WriteOfAByte := by
  intro s k v
  refine ⟨fun hs => by simp [perform, writeByte, hs], fun hs => ?_⟩
  split
  next hk =>
    exact ⟨{ s with bits := writeByteCells k v s.bits }, by simp [perform, writeByte, hs, hk], rfl, writeByte_spec s k v⟩
  next hk => simp [perform, writeByte, hs, hk]

open Sys2Proof.Machine in
/-- Settles O50: the tables of codes, and the invariant of the registers for a run. -/
theorem registerReads : Obligations.RegisterReads := by
  intro s
  obtain ⟨hidle, hparse, heval, hdone, hfault⟩ := statusCode_eq_iff s.status
  obtain ⟨hnone, htype, hbits, hempty, hlit⟩ := errCode_eq_iff s.err
  refine ⟨hidle, hparse, heval, hdone, hfault, hnone, htype, hbits, hempty, hlit, rfl, rfl, rfl, rfl, rfl,
    flagsRead_eq_one_iff s, flagsRead_of_not_done, fun hi hs => ?_, by simp [State.doneLine], rfl⟩
  obtain ⟨hresult, herr, hepos, hconsumed⟩ := hi.reg.reads_of_run hs
  exact ⟨by simp [hostRead, hresult], hnone.mpr herr, hepos, hconsumed⟩
end

section
/-! PROOF. The engine reads BITS below LEN alone, so two runs on one stream go in step (R31, R47, R91). -/
namespace Sys2Proof.Machine

open Sys2Proof

variable {s t : State}

theorem length_stream (s : State) : s.stream.length = s.len := length_slice s 0 s.len

theorem slice_congr {s' : State} {p n : Nat} (h : ∀ q, p ≤ q → q < p + n → s'.bit q = s.bit q) :
    s'.slice p n = s.slice p n :=
  List.map_congr_left fun q hq => h q (List.mem_range'_1.mp hq).1 (List.mem_range'_1.mp hq).2

theorem bit_eq_of_stream_eq {s' : State} (h : s'.stream = s.stream) {p : Nat} (hp : p < s.len) : s'.bit p = s.bit p := by
  have hlen : s'.len = s.len := by rw [← length_stream, h, length_stream]
  have hget : s'.stream[p]? = s.stream[p]? := by rw [h]
  simpa [State.stream, State.slice, hlen, hp] using hget

/-- Another content of BITS, as another power-on and other writes leave it. -/
def State.withInput (s : State) (m : List (Nat × Bool)) (n : Nat) : State := { s with bits := m, powerOn := n }

section OtherInput

variable {m : List (Nat × Bool)} {n : Nat}

theorem window_withInput (h : (s.withInput m n).stream = s.stream) : (s.withInput m n).window 7 = s.window 7 := by
  refine slice_congr fun q hle hlt => bit_eq_of_stream_eq h ?_
  change s.pos ≤ q at hle
  change q < s.pos + min 7 (s.len - s.pos) at hlt
  omega

theorem group_withInput (h : (s.withInput m n).stream = s.stream) : (s.withInput m n).group = s.group := by
  by_cases hfit : s.len - s.pos < 5
  · exact (if_pos hfit).trans (if_pos hfit).symm
  · have hslice : (s.withInput m n).slice s.pos 5 = s.slice s.pos 5 :=
      slice_congr fun q _ hlt => bit_eq_of_stream_eq h (by omega)
    have hfield : (s.withInput m n).field (s.withInput m n).pos 5 = s.field s.pos 5 := congrArg bitsValue hslice
    rw [State.group, State.group, hfield]
    rfl

/-- A move on one stream is a move on every other content of BITS with the same stream. -/
theorem EngineMove.withInput (hm : EngineMove s t) (h : (s.withInput m n).stream = s.stream) :
    EngineMove (s.withInput m n) (t.withInput m n) := by
  have hw := window_withInput h
  have hg' := group_withInput h
  cases hm with
  | rest hp he => exact .rest hp he
  | typeCut hs hp hd => exact .typeCut hs hp (hw ▸ hd)
  | countCut hs hp hd => exact .countCut hs hp (hw ▸ hd)
  | illegal hs hp hd hi => exact .illegal hs hp (hw ▸ hd) hi
  | literal hs hp hd => exact .literal hs hp (hw ▸ hd)
  | leaf hs hp hd => exact .leaf hs hp (hw ▸ hd)
  | descend hs hp hd hc => exact .descend hs hp (hw ▸ hd) hc
  | groupCut hs hp hg => exact .groupCut hs hp (hg' ▸ hg)
  | groupMore hs hp hg hmore => exact .groupMore hs hp (hg' ▸ hg) hmore
  | groupOverflow hs hp hg hmore hn ho => exact .groupOverflow hs hp (hg' ▸ hg) hmore hn ho
  | groupFinal hs hp hg hmore hn ho => exact .groupFinal hs hp (hg' ▸ hg) hmore hn ho
  | parseEnd hs hp hn hf => exact .parseEnd hs hp hn hf
  | lastChild hs hp hn hf hr => exact .lastChild hs hp hn hf hr
  | nextChild hs hp hn hf hr => exact .nextChild hs hp hn hf hr
  | fetchLiteral hs he hn ht => exact .fetchLiteral hs he hn ht
  | fetchEmpty hs he hn ht hc => exact .fetchEmpty hs he hn ht hc
  | fetchOperator hs he hn ht hc => exact .fetchOperator hs he hn ht hc
  | foldLast hs he hf hr => exact .foldLast hs he hf hr
  | foldMore hs he hf hr => exact .foldMore hs he hf hr
  | finish hs he hf => exact .finish hs he hf

theorem EngineRun.withInput {k : Nat} (hr : EngineRun k s t) (h : (s.withInput m n).stream = s.stream) :
    EngineRun k (s.withInput m n) (t.withInput m n) := by
  induction hr with
  | refl => exact .refl _
  | head hm _ ih =>
    have hm' := hm.withInput h
    exact .head hm' (ih (by rw [hm'.sameInput.stream, h, hm.sameInput.stream]))

end OtherInput

/-- R120: START writes every register but LEN and BITS, so two states in IDLE differ in these alone after it. -/
theorem commandStart_eq_withInput {s' : State} (hs : s.status = .idle) (hs' : s'.status = .idle) (hl : s'.len = s.len)
    (ha : s'.agenda = s.agenda) : commandStart s' = (commandStart s).withInput s'.bits s'.powerOn := by
  simp [commandStart, hs, hs', initRun, State.withInput, hl, ha]

theorem stream_commandStart (s : State) : (commandStart s).stream = s.stream := by
  unfold commandStart
  split <;> rfl

end Sys2Proof.Machine

open Sys2Proof.Machine in
/-- Settles O59: after START the two states differ in the content of BITS alone, and no move reads it beyond the stream. -/
theorem runsDependOnTheStreamAlone : Obligations.RunsDependOnTheStreamAlone := by
  intro s s' k t hs hs' ha ha' hstream hrun
  have hlen : s'.len = s.len := by rw [← length_stream, ← hstream, length_stream]
  have hstart := commandStart_eq_withInput hs hs' hlen (ha'.trans ha.symm)
  have hsame : ((commandStart s).withInput s'.bits s'.powerOn).stream = (commandStart s).stream := by
    rw [← hstart, stream_commandStart, stream_commandStart, hstream]
  have hagenda : (commandStart s).agenda = [] := by simp [commandStart, hs, ha]
  refine ⟨t.withInput s'.bits s'.powerOn, ?_, rfl, rfl, rfl, rfl, rfl, rfl, rfl⟩
  rw [hstart]
  exact (run_eq_next_iff (s := (commandStart s).withInput s'.bits s'.powerOn) hagenda).mpr
    (((run_eq_next_iff hagenda).mp hrun).withInput hsame)
end

section
/-! PROOF. The functional view of the parse: the extent of every packet it returns and the position of every fault it raises
(R34, R68, R88, R151). -/
namespace Sys2Proof.Machine

open Sys2Proof

theorem bitsValue_lt (bs : List Bool) : bitsValue bs < 2 ^ bs.length := by
  induction bs with
  | nil => simp [bitsValue]
  | cons b bs ih =>
    have hb : b.toNat ≤ 1 := Bool.toNat_le b
    have hmul : b.toNat * 2 ^ bs.length ≤ 2 ^ bs.length := by nlinarith
    rw [bitsValue, List.length_cons, Nat.pow_succ]
    omega

theorem bitsAt_lt (bs : List Bool) (p n : Nat) : bitsAt bs p n < 2 ^ n :=
  (bitsValue_lt _).trans_le (Nat.pow_le_pow_right Nat.two_pos (by simp))

/-! The extent of a packet (R88). -/

/-- What the length property says of a packet parsed at `p` of a stream of `len` bits. -/
structure Extent (len p : Nat) (t : Packet) : Prop where
  wf : packetWf t = true
  start : t.start = p
  fits : p + t.size ≤ len
  literals_le : literalCount t ≤ packetCount t
  size_eq : t.size = 3 * literalCount t + 7 * (packetCount t - literalCount t) + 5 * groupCount t
  size_ge : 7 * packetCount t ≤ t.size

/-- The same of packets back to back from `p`, which end at `q`. -/
structure Extents (len p q : Nat) (ts : List Packet) : Prop where
  wf : packetsWf p ts = true
  end_eq : q = p + (ts.map Packet.size).sum
  fits : q ≤ len
  literals_le : literalCountAll ts ≤ packetCountAll ts
  size_eq : (ts.map Packet.size).sum =
    3 * literalCountAll ts + 7 * (packetCountAll ts - literalCountAll ts) + 5 * groupCountAll ts
  size_ge : 7 * packetCountAll ts ≤ (ts.map Packet.size).sum

theorem extents_nil {len p : Nat} (h : p ≤ len) : Extents len p p [] := by
  constructor <;> simp [packetsWf, packetCountAll, literalCountAll, groupCountAll, h]

theorem extents_cons {len p q : Nat} {t : Packet} {ts : List Packet} (h : Extent len p t)
    (hs : Extents len (p + t.size) q ts) : Extents len p q (t :: ts) := by
  obtain ⟨hwf, hstart, hfits, hlits, heq, hge⟩ := h
  obtain ⟨hwfs, hend, hfitss, hlitss, heqs, hges⟩ := hs
  constructor
  · simp [packetsWf, hstart, hwf, hwfs]
  · simp only [List.map_cons, List.sum_cons]
    omega
  · exact hfitss
  all_goals
    simp only [List.map_cons, List.sum_cons, packetCountAll, literalCountAll, groupCountAll]
    omega

theorem extent_lit {len p g v : Nat} (hg : 1 ≤ g) (hv : (v : Int) ≤ intMax) (hfit : p + (3 + 5 * g) ≤ len) :
    Extent len p (.lit v p (3 + 5 * g)) := by
  constructor
  · simp only [packetWf, hv, decide_true, Bool.true_and, Bool.and_eq_true, decide_eq_true_eq]
    omega
  · rfl
  · exact hfit
  all_goals
    simp only [literalCount, packetCount, groupCount, Packet.size]
    omega

theorem extent_op {len p q c : Nat} {o : Op} {ts : List Packet} (hc : c ≤ 15) (hlen : ts.length = c)
    (hs : Extents len (p + 7) q ts) : Extent len p (.op o c ts p (q - p)) := by
  obtain ⟨hwfs, hend, hfitss, hlitss, heqs, hges⟩ := hs
  have hsize : q - p = 7 + (ts.map Packet.size).sum := by omega
  constructor
  · simp only [packetWf, hlen, hc, hwfs, decide_true, Bool.true_and, Bool.and_true, decide_eq_true_eq]
    exact hsize
  · rfl
  all_goals
    simp only [literalCount, packetCount, groupCount, Packet.size]
    omega

/-! The literal (R85). -/

theorem exists_cons_of_five_le {bs : List Bool} (h : 5 ≤ bs.length) :
    ∃ b4 b3 b2 b1 b0 rest, bs = b4 :: b3 :: b2 :: b1 :: b0 :: rest := by
  match bs, h with
  | b4 :: b3 :: b2 :: b1 :: b0 :: rest, _ => exact ⟨b4, b3, b2, b1, b0, rest, rfl⟩

theorem parseGroups_ok {bs : List Bool} {q u v q' : Nat} (h : parseGroups bs q u = .ok (v, q')) :
    ∃ g, 1 ≤ g ∧ q' = q + 5 * g ∧ 5 * g ≤ bs.length := by
  fun_induction parseGroups bs q u with
  | case1 _ _ _ _ rest _ _ _ ih =>
    obtain ⟨g, hg, rfl, hlen⟩ := ih h
    exact ⟨g + 1, by omega, by omega, by simp only [List.length_cons]; omega⟩
  | case2 =>
    obtain ⟨-, rfl⟩ := Prod.mk.inj (Except.ok.inj h)
    exact ⟨1, le_rfl, rfl, by simp⟩
  | case3 => cases h

/-- R151: what a fault of the parse may report: a kind of the engine's, a position within LEN, and in a cut packet one at most
four bits before LEN. -/
structure RaisedWithin (len : Nat) (r : Raise) : Prop where
  kind : r.kind ≠ .invalidInput
  pos_le : r.pos ≤ len
  cut : r.kind = .outOfBits → len ≤ r.pos + 4

theorem parseGroups_error {bs : List Bool} {q u : Nat} {r : Raise} (h : parseGroups bs q u = .error r) :
    RaisedWithin (q + bs.length) r := by
  fun_induction parseGroups bs q u with
  | case1 n3 n2 n1 n0 rest q u _ ih =>
    have hr := ih h
    rwa [show q + 5 + rest.length = q + (true :: n3 :: n2 :: n1 :: n0 :: rest).length by simp; omega] at hr
  | case2 => cases h
  | case3 bs q u hshort =>
    cases h
    have hlen : bs.length < 5 := by
      by_contra hge
      obtain ⟨b4, b3, b2, b1, b0, rest, hbs⟩ := exists_cons_of_five_le (Nat.le_of_not_lt hge)
      exact hshort b4 b3 b2 b1 b0 rest hbs
    exact ⟨by simp, Nat.le_add_right _ _, fun _ => by dsimp only; omega⟩

theorem parseLiteral_ok {bs : List Bool} {p : Nat} {t : Packet} (h : parseLiteral bs p = .ok t) :
    ∃ v q, parseGroups (bs.drop (p + 3)) (p + 3) 0 = .ok (v, q) ∧ (v : Int) ≤ intMax ∧ t = .lit v p (q - p) := by
  unfold parseLiteral at h
  split at h
  · cases h
  · rename_i v q hg
    split at h <;> rename_i hv <;> cases h
    exact ⟨v, q, hg, by omega, rfl⟩

theorem parseLiteral_extent {bs : List Bool} {p : Nat} {t : Packet} (h : parseLiteral bs p = .ok t) :
    Extent bs.length p t := by
  obtain ⟨v, q, hg, hv, rfl⟩ := parseLiteral_ok h
  obtain ⟨g, hg1, rfl, hlen⟩ := parseGroups_ok hg
  rw [List.length_drop] at hlen
  rw [show p + 3 + 5 * g - p = 3 + 5 * g by omega]
  exact extent_lit hg1 hv (by omega)

theorem parseLiteral_error {bs : List Bool} {p : Nat} {r : Raise} (hp : p + 3 ≤ bs.length)
    (h : parseLiteral bs p = .error r) : RaisedWithin bs.length r := by
  unfold parseLiteral at h
  split at h
  next hg =>
    cases h
    have hr := parseGroups_error hg
    rwa [List.length_drop, Nat.add_sub_cancel' hp] at hr
  next =>
    split at h <;> cases h
    exact ⟨by simp, by simp; omega, by simp⟩

/-! The operator (R86). -/

section Children

variable {len : Nat} {parse : Nat → Except Raise Packet} {c q : Nat}

theorem parseChildren_succ_ok {ts : List Packet} {q' : Nat} (h : parseChildren parse (c + 1) q = .ok (ts, q')) :
    ∃ t ts', parse q = .ok t ∧ parseChildren parse c (q + t.size) = .ok (ts', q') ∧ ts = t :: ts' := by
  rw [parseChildren] at h
  split at h
  · cases h
  · rename_i t ht
    split at h <;> cases h
    exact ⟨t, _, ht, ‹_›, rfl⟩

theorem parseChildren_le {ts : List Packet} {q' : Nat} (h : parseChildren parse c q = .ok (ts, q')) : q ≤ q' := by
  induction c generalizing q ts with
  | zero =>
    cases h
    exact le_rfl
  | succ c ih =>
    obtain ⟨t, _, _, hts, _⟩ := parseChildren_succ_ok h
    exact (Nat.le_add_right q t.size).trans (ih hts)

theorem parseChildren_extents {ts : List Packet} {q' : Nat} (hparse : ∀ p t, parse p = .ok t → Extent len p t)
    (hq : q ≤ len) (h : parseChildren parse c q = .ok (ts, q')) : ts.length = c ∧ Extents len q q' ts := by
  induction c generalizing q ts with
  | zero =>
    cases h
    exact ⟨rfl, extents_nil hq⟩
  | succ c ih =>
    obtain ⟨t, ts', ht, hts, rfl⟩ := parseChildren_succ_ok h
    have hext := hparse q t ht
    obtain ⟨hlen, hexts⟩ := ih hext.fits hts
    exact ⟨by simp [hlen], extents_cons hext hexts⟩

/-- A fault among the children is that of one of them, at its own boundary. -/
theorem parseChildren_error {r : Raise} (hparse : ∀ p t, parse p = .ok t → Extent len p t) (hq : q ≤ len)
    (h : parseChildren parse c q = .error r) : ∃ p, q ≤ p ∧ p ≤ len ∧ parse p = .error r := by
  induction c generalizing q with
  | zero => cases h
  | succ c ih =>
    rw [parseChildren] at h
    split at h
    · rename_i hr
      cases h
      exact ⟨q, le_rfl, hq, hr⟩
    · rename_i t ht
      split at h <;> cases h
      obtain ⟨p, hqp, hp⟩ := ih (hparse q t ht).fits ‹_›
      exact ⟨p, by omega, hp⟩

end Children

theorem parseOperator_ok {parse : Nat → Except Raise Packet} {bs : List Bool} {p k : Nat} {t : Packet}
    (h : parseOperator parse bs p k = .ok t) :
    7 ≤ bs.length - p ∧ ∃ ts q, parseChildren parse (bitsAt bs (p + 3) 4) (p + 7) = .ok (ts, q) ∧
      t = .op (Op.ofType k) (bitsAt bs (p + 3) 4) ts p (q - p) := by
  unfold parseOperator at h
  split at h
  · cases h
  · refine ⟨by omega, ?_⟩
    simp only at h
    split at h <;> cases h
    exact ⟨_, _, ‹_›, rfl⟩

theorem parseOperator_extent {parse : Nat → Except Raise Packet} {bs : List Bool} {p k : Nat} {t : Packet}
    (hparse : ∀ p t, parse p = .ok t → Extent bs.length p t) (h : parseOperator parse bs p k = .ok t) :
    Extent bs.length p t := by
  obtain ⟨hfit, ts, q, hts, rfl⟩ := parseOperator_ok h
  obtain ⟨hlen, hexts⟩ := parseChildren_extents hparse (by omega) hts
  exact extent_op (Nat.le_of_lt_succ (bitsAt_lt bs (p + 3) 4)) hlen hexts

/-- R86, R151: an operator whose children raise within LEN does so itself. -/
theorem parseOperator_error {parse : Nat → Except Raise Packet} {bs : List Bool} {p k : Nat} {r : Raise}
    (hparse : ∀ p t, parse p = .ok t → Extent bs.length p t)
    (hraise : ∀ q r, p + 7 ≤ q → q ≤ bs.length → parse q = .error r → RaisedWithin bs.length r)
    (hp : 3 ≤ bs.length - p) (h : parseOperator parse bs p k = .error r) : RaisedWithin bs.length r := by
  unfold parseOperator at h
  split at h
  · cases h
    exact ⟨by simp, by simp; omega, by simp; omega⟩
  · simp only at h
    split at h
    · rename_i hr
      cases h
      obtain ⟨q, hpq, hq, hr⟩ := parseChildren_error hparse (by omega) hr
      exact hraise q _ hpq hq hr
    · cases h

/-! The packet (R81). -/

/-- R81: a packet that is parsed is a literal or an operator whose children are parsed one level down. -/
theorem parsePacket_succ_ok {depth : Nat} {bs : List Bool} {p : Nat} {t : Packet}
    (h : parsePacket (depth + 1) bs p = .ok t) :
    3 ≤ bs.length - p ∧ ((classify bs p = 4 ∧ parseLiteral bs p = .ok t) ∨
      (classify bs p < 4 ∧ parseOperator (parsePacket depth bs) bs p (classify bs p) = .ok t)) := by
  rw [parsePacket] at h
  split at h
  · cases h
  · refine ⟨by omega, ?_⟩
    simp only at h
    split at h
    · cases h
    · split at h <;> rename_i h4
      · exact .inl ⟨h4, h⟩
      · exact .inr ⟨by omega, h⟩

theorem parsePacket_extent {depth : Nat} {bs : List Bool} {p : Nat} {t : Packet} (h : parsePacket depth bs p = .ok t) :
    Extent bs.length p t := by
  induction depth generalizing p t with
  | zero => cases h
  | succ depth ih =>
    obtain ⟨-, ⟨-, hlit⟩ | ⟨-, hop⟩⟩ := parsePacket_succ_ok h
    · exact parseLiteral_extent hlit
    · exact parseOperator_extent (fun _ _ hc => ih hc) hop

/-- R90: a bound of the depth that the rest of the stream cannot exceed is never met. -/
theorem parsePacket_error {depth : Nat} {bs : List Bool} {p : Nat} {r : Raise} (hp : p ≤ bs.length)
    (hd : bs.length < p + 7 * depth) (h : parsePacket depth bs p = .error r) : RaisedWithin bs.length r := by
  induction depth generalizing p r with
  | zero => omega
  | succ depth ih =>
    rw [parsePacket] at h
    split at h
    · cases h
      exact ⟨by simp, hp, by simp; omega⟩
    · simp only at h
      split at h
      · cases h
        exact ⟨by simp, hp, by simp⟩
      · split at h
        · exact parseLiteral_error (by omega) h
        · exact parseOperator_error (fun _ _ hc => parsePacket_extent hc)
            (fun q r hpq hq hr => ih hq (by omega) hr) (by omega) h

theorem parseRun_error {bs : List Bool} {r : Raise} (h : parseRun bs = .error r) : RaisedWithin bs.length r :=
  parsePacket_error (Nat.zero_le _) (by omega) h

/-! The evaluation (R102, R156): the one fault it raises. -/

theorem foldValues_error {o : Op} {p : Nat} {vs : List (Int × Bool)} {r : Raise} (h : foldValues o p vs = .error r) :
    r = ⟨.emptyOperator, p⟩ := by
  cases vs with
  | nil =>
    cases h
    rfl
  | cons v vs => cases h

mutual
theorem evaluate_error {t : Packet} {r : Raise} (hwf : packetWf t = true) (h : evaluate t = .error r) :
    r.kind = .emptyOperator ∧ r.pos ≤ t.start + t.size := by
  cases t with
  | lit v p z => cases h
  | op o c ts p z =>
    simp only [packetWf, Bool.and_eq_true, decide_eq_true_eq] at hwf
    obtain ⟨⟨-, hz⟩, hwfs⟩ := hwf
    rw [evaluate] at h
    split at h
    · cases h
      exact ⟨rfl, Nat.le_add_right _ _⟩
    · split at h
      · rename_i hr
        cases h
        obtain ⟨hkind, hpos⟩ := evaluateAll_error hwfs hr
        exact ⟨hkind, by simp only [Packet.start, Packet.size]; omega⟩
      · cases foldValues_error h
        exact ⟨rfl, Nat.le_add_right _ _⟩
theorem evaluateAll_error {ts : List Packet} {p : Nat} {r : Raise} (hwf : packetsWf p ts = true)
    (h : evaluateAll ts = .error r) : r.kind = .emptyOperator ∧ r.pos ≤ p + (ts.map Packet.size).sum := by
  cases ts with
  | nil => cases h
  | cons t ts =>
    simp only [packetsWf, Bool.and_eq_true, decide_eq_true_eq] at hwf
    obtain ⟨⟨rfl, hwft⟩, hwfs⟩ := hwf
    rw [evaluateAll] at h
    simp only [List.map_cons, List.sum_cons]
    split at h
    · rename_i hr
      cases h
      obtain ⟨hkind, hpos⟩ := evaluate_error hwft hr
      exact ⟨hkind, by omega⟩
    · split at h <;> cases h
      obtain ⟨hkind, hpos⟩ := evaluateAll_error hwfs ‹_›
      exact ⟨hkind, by omega⟩
end

/-- R22: a tree that has a value is a literal with a group, or an operator with a child. -/
theorem eight_le_size_of_evaluate {len p : Nat} {t : Packet} {x : Int × Bool} (ht : Extent len p t)
    (h : evaluate t = .ok x) : 8 ≤ t.size := by
  have hwf := ht.wf
  cases t with
  | lit v p z =>
    simp only [packetWf, Bool.and_eq_true, decide_eq_true_eq] at hwf
    exact hwf.1.2
  | op o c ts p z =>
    cases ts with
    | nil =>
      obtain rfl : 0 = c := by simp [packetWf] at hwf; omega
      simp [evaluate] at h
    | cons t ts =>
      have hge := ht.size_ge
      cases t <;> simp only [packetCount, packetCountAll] at hge <;> omega

end Sys2Proof.Machine

open Sys2Proof.Machine in
/-- Settles O51, by induction on the depth: the extent of a literal, and of an operator from those of its children. -/
theorem lengthProperty : Obligations.LengthProperty := by
  intro depth bs p t h
  obtain ⟨hwf, hstart, hfits, -, heq, hge⟩ := parsePacket_extent h
  exact ⟨hwf, hstart, hfits, heq, hge⟩

open Sys2Proof.Machine in
/-- Settles O55: a parse fault within LEN, an empty operator within the tree, or the tree's own extent. -/
theorem outcomeBounds : Obligations.OutcomeBounds := by
  intro bs
  unfold verdictOf
  cases hrun : parseRun bs with
  | error r =>
    obtain ⟨hkind, hpos, hcut⟩ := parseRun_error hrun
    refine ⟨fun v c ovf h => by simp at h, fun k p h => ?_⟩
    cases h
    exact ⟨hkind, hpos, hcut⟩
  | ok t =>
    have hext : Extent bs.length 0 t := parsePacket_extent hrun
    have hfits := hext.fits
    cases hev : evaluate t with
    | error r =>
      obtain ⟨hkind, hpos⟩ := evaluate_error hext.wf hev
      have hstart := hext.start
      refine ⟨fun v c ovf h => by simp [hev] at h, fun k p h => ?_⟩
      simp only [hev] at h
      cases h
      exact ⟨by simp [hkind], by omega, by simp [hkind]⟩
    | ok x =>
      refine ⟨fun v c ovf h => ?_, fun k p h => by simp [hev] at h⟩
      simp only [hev] at h
      cases h
      exact ⟨eight_le_size_of_evaluate hext hev, by omega⟩
end

section
/-! PROOF. The parse phase builds the tree's pre-order list: each packet that the functional view parses is read by the engine
in two steps and one more for each literal group (R35, R140, R143). -/
namespace Sys2Proof.Machine

open Sys2Proof

variable {s t : State}

/-! What the header step and the group step read, in terms of the stream (R41). -/

theorem take_drop_stream (s : State) (p n : Nat) : (s.stream.drop p).take n = s.slice p (min n (s.len - p)) :=
  List.ext_getElem (by simp [State.stream, State.slice]) fun i _ _ => by simp [State.stream, State.slice]

theorem window_eq_take_drop_stream (s : State) : s.window 7 = (s.stream.drop s.pos).take 7 :=
  (take_drop_stream s s.pos 7).symm

theorem field_eq_bitsAt_stream {p n : Nat} (h : p + n ≤ s.len) : s.field p n = bitsAt s.stream p n := by
  rw [State.field, bitsAt, take_drop_stream, Nat.min_eq_left (by omega)]

/-- R63: the header of a type 4. -/
theorem decode_of_classify_eq_four {bs : List Bool} {p : Nat} (h3 : 3 ≤ bs.length - p) (h : classify bs p = 4) :
    ∃ rest, decode ((bs.drop p).take 7) = .ok (.lit, rest) := by
  have hlen : 3 ≤ (bs.drop p).length := by simpa using h3
  rw [classify, bitsAt] at h
  match bs.drop p, hlen, h with
  | b2 :: b1 :: b0 :: l, _, h =>
    revert h
    cases b2 <;> cases b1 <;> cases b0 <;> simp [bitsValue, decode]

/-- R63, R64: the header of a type 0 to 3. -/
theorem decode_of_classify_lt_four {bs : List Bool} {p : Nat} (h7 : 7 ≤ bs.length - p) (h : classify bs p < 4) :
    ∃ rest, decode ((bs.drop p).take 7) =
      .ok (opInstr (Op.ofType (classify bs p)) (BitVec.ofNat 4 (bitsAt bs (p + 3) 4)), rest) := by
  have hlen : 7 ≤ (bs.drop p).length := by simpa using h7
  rw [classify, bitsAt] at h
  rw [classify, bitsAt, bitsAt, ← List.drop_drop]
  match bs.drop p, hlen, h with
  | b2 :: b1 :: b0 :: c3 :: c2 :: c1 :: c0 :: l, _, h =>
    revert h
    cases b2 <;> cases b1 <;> cases b0 <;> simp [bitsValue, decode, decodeCount, Op.ofType, opInstr]

/-- R61: the two parts of a group. -/
theorem group_bits (b n3 n2 n1 n0 : Bool) :
    (bitsValue [b, n3, n2, n1, n0]).testBit 4 = b ∧
      BitVec.ofNat 4 (bitsValue [b, n3, n2, n1, n0]) = BitVec.ofNat 4 (bitsValue [n3, n2, n1, n0]) := by
  revert b n3 n2 n1 n0
  decide

theorem toNat_nibble (n3 n2 n1 n0 : Bool) :
    (BitVec.ofNat 4 (bitsValue [n3, n2, n1, n0])).toNat = bitsValue [n3, n2, n1, n0] := by
  revert n3 n2 n1 n0
  decide

theorem group_of_stream {b n3 n2 n1 n0 : Bool} {rest : List Bool}
    (h : s.stream.drop s.pos = b :: n3 :: n2 :: n1 :: n0 :: rest) :
    s.group = some ⟨b, BitVec.ofNat 4 (bitsValue [n3, n2, n1, n0])⟩ := by
  have hlen : s.len - s.pos = rest.length + 5 := by
    have := congrArg List.length h
    simpa [length_stream] using this
  obtain ⟨hmore, hnibble⟩ := group_bits b n3 n2 n1 n0
  have hfield : s.field s.pos 5 = bitsValue [b, n3, n2, n1, n0] := by
    rw [field_eq_bitsAt_stream (by omega), bitsAt, h]
    rfl
  rw [State.group, if_neg (by omega), hfield, hmore, hnibble]

/-! The value of a literal in LVAL and LOV (R125, R126). -/

/-- R125: the four bits about to be shifted out. -/
theorem extractLsb_ne_zero_iff (w : Word) : w.extractLsb 31 28 ≠ 0 ↔ 2 ^ 28 ≤ w.toNat := by
  have hw := w.isLt
  rw [Ne, ← BitVec.toNat_inj, BitVec.extractLsb_toNat, Nat.shiftRight_eq_div_pow]
  simp
  omega

/-- R126: the sign bit. -/
theorem getLsbD_31_iff (w : Word) : w.getLsbD 31 = true ↔ 2 ^ 31 ≤ w.toNat := by
  have hw := w.isLt
  rw [BitVec.getLsbD, Nat.testBit_eq_decide_div_mod_eq, decide_eq_true_eq]
  omega

/-- R125: a group appends its four value bits. -/
theorem holdsLiteral_readGroup {u : Nat} (h : HoldsLiteral s u) (g : Group) :
    HoldsLiteral (readGroup g s) (u * 16 + g.nibble.toNat) := by
  obtain ⟨hval, hlov⟩ := h
  have hnib : g.nibble.toNat < 16 := g.nibble.isLt
  constructor
  · apply BitVec.eq_of_toNat_eq
    simp [readGroup, shiftInNibble, hval]
  · simp only [readGroup, lovAfter, Bool.or_eq_true, hlov, decide_eq_true_eq, extractLsb_ne_zero_iff, hval,
      BitVec.toNat_ofNat]
    omega

/-- R126: the two flags of the check say that the exact value is above INT_MAX. -/
theorem literalOverflows_iff {u : Nat} (h : HoldsLiteral s u) :
    literalOverflows s.lov s.lval = true ↔ (u : Int) > intMax := by
  obtain ⟨hval, hlov⟩ := h
  rw [literalOverflows, Bool.or_eq_true, hlov, getLsbD_31_iff, hval, BitVec.toNat_ofNat, intMax]
  omega

/-! The packet (R123 to R127). -/

/-- The engine is at a packet boundary of the stream. -/
structure AtHeader (bs : List Bool) (s : State) : Prop where
  status : s.status = .parse
  psub : s.psub = .hdr
  stream : s.stream = bs

/-- A packet begun in `s` is complete but for its size: its entries `ns` are appended, CUR is the first of them, POS its end
`q`. LVAL and LOV hold what the last literal left. -/
def completed (s : State) (ns : List Node) (q : Nat) (lval : Word) (lov : Bool) : State :=
  { s with node := s.node ++ ns, pos := q, cur := s.node.length, lval := lval, lov := lov, psub := .ret }

/-- R35: `flat(P)` before the size of `P` itself is recorded. -/
def openFlat : Packet → List Node
  | .lit v start _ => [⟨.lit, 0, BitVec.ofNat 32 v, start, 0⟩]
  | .op o c children start _ => ⟨.op o, BitVec.ofNat 4 c, 0, start, 0⟩ :: flatAll children

/-- The engine reads `t` from `s` up to its RET step, in two steps a packet and one a group, the RET step counted. -/
def ReadsPacket (s : State) (t : Packet) : Prop :=
  ∃ k lval lov, k + 1 = 2 * packetCount t + groupCount t ∧
    EngineRun k s (completed s (openFlat t) (s.pos + t.size) lval lov)

/-- R127: the RET step of a packet records its size, and its entries are then `flat` of it. -/
theorem openFlat_sized {t : Packet} {p : Nat} (l : List Node) (h : t.start = p) :
    ∃ n, (l ++ openFlat t)[l.length]? = some n ∧
      (l ++ openFlat t).set l.length { n with size := p + t.size - n.start } = l ++ flat t := by
  cases t with
  | lit v start z =>
    exact ⟨⟨.lit, 0, BitVec.ofNat 32 v, start, 0⟩, by simp_all [openFlat, flat, Packet.start, Packet.size]⟩
  | op o c ts start z =>
    exact ⟨⟨.op o, BitVec.ofNat 4 c, 0, start, 0⟩, by simp_all [openFlat, flat, Packet.start, Packet.size]⟩

/-- R125, R126: the groups of a literal that is not too large are read one a step, and its value is stored. -/
theorem engineRun_groups {bs : List Bool} {q u v q' : Nat} {n : Node} (h : parseGroups bs q u = .ok (v, q'))
    (hv : (v : Int) ≤ intMax) (hs : s.status = .parse) (hp : s.psub = .grp) (hpos : s.pos = q)
    (hbs : s.stream.drop q = bs) (hu : HoldsLiteral s u) (hn : s.node[s.cur]? = some n) :
    ∃ k lval lov, q' = q + 5 * k ∧ EngineRun k s { s with
      node := s.node.set s.cur { n with val := BitVec.ofNat 32 v }, pos := q', lval := lval, lov := lov, psub := .ret } := by
  fun_induction parseGroups bs q u generalizing s with
  | case1 n3 n2 n1 n0 rest q u =>
    rename_i ih
    subst hpos
    have hread := holdsLiteral_readGroup hu ⟨true, BitVec.ofNat 4 (bitsValue [n3, n2, n1, n0])⟩
    rw [toNat_nibble] at hread
    have hrest : s.stream.drop (s.pos + 5) = rest := by rw [← List.drop_drop, hbs]; rfl
    obtain ⟨k, lval, lov, hk, hrun⟩ := @ih (readGroup _ s) h hs rfl rfl hrest hread hn
    exact ⟨k + 1, lval, lov, by omega, .head (.groupMore hs hp (group_of_stream hbs) rfl) hrun⟩
  | case2 more n3 n2 n1 n0 rest q u =>
    rename_i hmore
    subst hpos
    obtain ⟨rfl, rfl⟩ := Prod.mk.inj (Except.ok.inj h)
    have hread := holdsLiteral_readGroup hu ⟨more, BitVec.ofNat 4 (bitsValue [n3, n2, n1, n0])⟩
    rw [toNat_nibble] at hread
    have hfits := mt (literalOverflows_iff hread).mp (not_lt.mpr hv)
    have hmove := EngineMove.groupFinal hs hp (group_of_stream hbs) (by simpa using hmore) hn (by simpa using hfits)
    obtain ⟨hval, -⟩ := hread
    rw [storeValue, hval] at hmove
    exact ⟨1, _, _, rfl, .single hmove⟩
  | case3 => cases h

theorem AtHeader.decode_window {bs : List Bool} (h : AtHeader bs s) :
    decode (s.window 7) = decode ((bs.drop s.pos).take 7) := by
  rw [window_eq_take_drop_stream, h.stream]

/-- R123, R125, R126: a literal. -/
theorem readsPacket_literal {bs : List Bool} (h : AtHeader bs s) (hfit : 3 ≤ bs.length - s.pos)
    (hc : classify bs s.pos = 4) {t : Packet} (ht : parseLiteral bs s.pos = .ok t) : ReadsPacket s t := by
  obtain ⟨v, q, hg, hv, rfl⟩ := parseLiteral_ok ht
  obtain ⟨rest, hd⟩ := decode_of_classify_eq_four hfit hc
  have hmove := EngineMove.literal h.status h.psub (h.decode_window.trans hd)
  obtain ⟨k, lval, lov, rfl, hrun⟩ := engineRun_groups (n := ⟨.lit, 0, 0, s.pos, 0⟩) (s := {
      s with node := s.node ++ [⟨.lit, 0, 0, s.pos, 0⟩], cur := s.node.length, lval := 0, lov := false,
             pos := s.pos + 3, psub := .grp }) hg hv h.status rfl rfl (by rw [← h.stream]; rfl)
    ⟨rfl, by simp⟩ (by simp)
  refine ⟨k + 1, lval, lov, ?_, ?_⟩
  · simp only [packetCount, groupCount]
    omega
  · have hend := EngineRun.head hmove hrun
    rw [Packet.size, Nat.add_sub_cancel' (by omega : s.pos ≤ s.pos + 3 + 5 * k)]
    simpa [completed, openFlat] using hend

section Children

variable {bs : List Bool} {parse : Nat → Except Raise Packet} {f : PFrame} {rest : List PFrame}

/-- R127: a packet that is read returns to the frame on top, which is done with it or has another child. -/
theorem engineMove_return {t : Packet} (ht : t.start = s.pos) {lval : Word} {lov : Bool} (hs : s.status = .parse)
    (hf : s.pstk = f :: rest) :
    let u := { completed s (openFlat t) (s.pos + t.size) lval lov with node := s.node ++ flat t }
    (f.rem = 1 → EngineMove (completed s (openFlat t) (s.pos + t.size) lval lov) { u with cur := f.node, pstk := rest }) ∧
    (2 ≤ f.rem → EngineMove (completed s (openFlat t) (s.pos + t.size) lval lov)
      { u with pstk := { f with rem := f.rem - 1 } :: rest, psub := .hdr }) := by
  intro u
  obtain ⟨n, hn, hset⟩ := openFlat_sized s.node ht
  constructor
  · intro hr
    have hmove := EngineMove.lastChild (s := completed s (openFlat t) (s.pos + t.size) lval lov) hs rfl hn hf (by omega)
    simp only [completed, hset] at hmove
    exact hmove
  · intro hr
    have hmove := EngineMove.nextChild (s := completed s (openFlat t) (s.pos + t.size) lval lov) hs rfl hn hf (by omega)
    simp only [completed, hset] at hmove
    exact hmove

/-- R86: the children of the operator whose frame is on top, each with its RET step. -/
theorem engineRun_children {i c q : Nat} {ts : List Packet}
    (hread : ∀ s t, AtHeader bs s → parse s.pos = .ok t → t.start = s.pos ∧ ReadsPacket s t)
    (h : parseChildren parse (c + 1) s.pos = .ok (ts, q)) (hs : AtHeader bs s) (hf : s.pstk = ⟨i, c + 1⟩ :: rest) :
    ∃ lval lov, EngineRun (2 * packetCountAll ts + groupCountAll ts) s { s with
      node := s.node ++ flatAll ts, pos := q, cur := i, pstk := rest, lval := lval, lov := lov, psub := .ret } := by
  induction c generalizing s ts with
  | zero =>
    obtain ⟨t, ts', ht, hts, rfl⟩ := parseChildren_succ_ok h
    cases hts
    obtain ⟨hstart, k, lval, lov, hk, hrun⟩ := hread s t hs ht
    refine ⟨lval, lov, ?_⟩
    have hend := hrun.trans (.single ((engineMove_return hstart hs.status hf).1 rfl))
    rw [hk] at hend
    simpa [packetCountAll, groupCountAll, flatAll, completed] using hend
  | succ c ih =>
    obtain ⟨t, ts', ht, hts, rfl⟩ := parseChildren_succ_ok h
    obtain ⟨hstart, k, lval, lov, hk, hrun⟩ := hread s t hs ht
    have hnext := hrun.trans (.single ((engineMove_return hstart hs.status hf).2 (by simp)))
    rw [hk] at hnext
    obtain ⟨lval', lov', hrest⟩ := ih (s := { completed s (openFlat t) (s.pos + t.size) lval lov with
      node := s.node ++ flat t, pstk := ⟨i, c + 1⟩ :: rest, psub := .hdr }) hts ⟨hs.status, rfl, hs.stream⟩ rfl
    refine ⟨lval', lov', ?_⟩
    have hend := hnext.trans hrest
    have hcount : 2 * packetCount t + groupCount t + (2 * packetCountAll ts' + groupCountAll ts') =
        2 * packetCountAll (t :: ts') + groupCountAll (t :: ts') := by
      simp only [packetCountAll, groupCountAll]
      omega
    rw [hcount] at hend
    simpa [completed, flatAll] using hend

end Children

/-- R124, R127: an operator, its children read by `parse`. -/
theorem readsPacket_operator {bs : List Bool} {parse : Nat → Except Raise Packet} {t : Packet}
    (hread : ∀ s t, AtHeader bs s → parse s.pos = .ok t → t.start = s.pos ∧ ReadsPacket s t)
    (h : AtHeader bs s) (hc : classify bs s.pos < 4)
    (ht : parseOperator parse bs s.pos (classify bs s.pos) = .ok t) : ReadsPacket s t := by
  obtain ⟨hfit, ts, q, hts, rfl⟩ := parseOperator_ok ht
  obtain ⟨rest, hd⟩ := decode_of_classify_lt_four hfit hc
  rw [← h.decode_window] at hd
  have hlt : bitsAt bs (s.pos + 3) 4 < 16 := bitsAt_lt bs (s.pos + 3) 4
  cases hcount : bitsAt bs (s.pos + 3) 4 with
  | zero =>
    rw [hcount] at hd hts
    cases hts
    refine ⟨1, s.lval, s.lov, by simp [packetCount, packetCountAll, groupCount, groupCountAll], ?_⟩
    have hend := EngineRun.single (.leaf h.status h.psub hd)
    simpa [completed, openFlat, flatAll, Packet.size] using hend
  | succ c =>
    rw [hcount] at hd hts hlt
    have hne : BitVec.ofNat 4 (c + 1) ≠ 0 := fun h0 => by
      have := congrArg BitVec.toNat h0
      simp at this
      omega
    have hmove := EngineMove.descend h.status h.psub hd hne
    rw [BitVec.toNat_ofNat, Nat.mod_eq_of_lt hlt] at hmove
    obtain ⟨lval, lov, hrun⟩ := engineRun_children (i := s.node.length) (rest := s.pstk) (s := { s with
        node := s.node ++ [⟨.op (Op.ofType (classify bs s.pos)), BitVec.ofNat 4 (c + 1), 0, s.pos, 0⟩], pos := s.pos + 7,
        pstk := ⟨s.node.length, c + 1⟩ :: s.pstk, psub := .hdr }) hread hts ⟨h.status, rfl, h.stream⟩ rfl
    refine ⟨2 * packetCountAll ts + groupCountAll ts + 1, lval, lov, by simp only [packetCount, groupCount]; omega, ?_⟩
    have hle : s.pos ≤ q := (Nat.le_add_right _ _).trans (parseChildren_le hts)
    rw [Packet.size, Nat.add_sub_cancel' hle]
    simpa [completed, openFlat] using EngineRun.head hmove hrun

/-- R81: a packet that the functional view parses, the engine reads. -/
theorem readsPacket_of_parsePacket {depth : Nat} {bs : List Bool} {t : Packet} (h : AtHeader bs s)
    (ht : parsePacket depth bs s.pos = .ok t) : ReadsPacket s t := by
  induction depth generalizing s t with
  | zero => cases ht
  | succ depth ih =>
    obtain ⟨hfit, ⟨hc, hlit⟩ | ⟨hc, hop⟩⟩ := parsePacket_succ_ok ht
    · exact readsPacket_literal h hfit hc hlit
    · exact readsPacket_operator (fun _ _ hs hp => ⟨(parsePacket_extent hp).start, ih hs hp⟩) h hc hop

/-- R84, R127: the last step of the parse phase, and what it leaves. -/
theorem exists_engineRun_parse {tree : Packet} (hs : s.status = .idle) (h : parseRun s.stream = .ok tree) :
    ∃ k u t, k + 1 = 2 * packetCount tree + groupCount tree ∧ EngineRun k (commandStart s) u ∧ u.status = .parse ∧
      EngineMove u t ∧ t.status = .eval ∧ t.node = flat tree ∧ t.consumed = tree.size ∧ t.eptr = 0 ∧ t.esub = .fetch ∧
      t.estk = [] ∧ t.ovf = false := by
  rw [commandStart, if_pos hs]
  obtain ⟨k, lval, lov, hk, hrun⟩ : ReadsPacket (initRun .parse s) tree := readsPacket_of_parsePacket ⟨rfl, rfl, rfl⟩ h
  obtain ⟨n, hn, hset⟩ := openFlat_sized [] (parsePacket_extent h).start
  refine ⟨k, _, _, hk, hrun, rfl, .parseEnd rfl rfl hn rfl, rfl, hset, ?_, rfl, rfl, rfl, rfl⟩
  simp [completed]

end Sys2Proof.Machine

open Sys2Proof.Machine in
/-- Settles O57: the parse phase reads the outermost packet, and its RET step, with no frame left, enters EVAL. -/
theorem nodeStoreHoldsTheTree : Obligations.NodeStoreHoldsTheTree := by
  intro s tree hs ha h
  obtain ⟨k, u, t, -, hrun, hu, hmove, ht, hnode, hconsumed, heptr, -⟩ := exists_engineRun_parse hs h
  have hagenda : (commandStart s).agenda = [] := by simp [commandStart, hs, ha]
  exact ⟨k, u, t, (run_eq_next_iff hagenda).mpr hrun, hu,
    (step_eq_next_iff (hrun.sameInput.agenda.trans hagenda)).mpr hmove, ht, hnode, hconsumed, heptr⟩
end

section
/-! PROOF. The host's bit converter (R43 to R45, R71): each character's four bits, which characters it rejects, and that it
undoes the rendering of a bit string. -/
namespace Sys2Proof.Machine

open Sys2Proof

/-! The digits (R44). -/

theorem hexDigit_hexChar {d : Nat} (h : d < 16) : hexDigit (hexChar d) = some d := by
  interval_cases d <;> decide

theorem hexDigit_lt {c : Char} {d : Nat} (h : hexDigit c = some d) : d < 16 := by
  simp only [hexDigit] at h
  split_ifs at h <;> cases h <;> omega

/-- R44, R45: the characters with a value are the 22, which are the three ranges of codes. -/
theorem hexDigit_eq_none_iff (c : Char) : hexDigit c = none ↔ c ∉ "0123456789ABCDEFabcdef".toList := by
  have hcodes : "0123456789ABCDEFabcdef".toList.map Char.toNat =
      List.range' 48 10 ++ List.range' 65 6 ++ List.range' 97 6 := by decide
  rw [← List.mem_map_of_injective fun _ _ => Char.toNat_inj.mp, hcodes]
  simp only [hexDigit, List.mem_append, List.mem_range'_1]
  split_ifs <;> simp only [true_iff, false_iff] <;> omega

/-! The string (R43, R45). -/

/-- R43: four bits for the first character, then those of the others. -/
theorem hexBits_cons_eq_some_iff {c : Char} {cs : List Char} {bs : List Bool} : hexBits (c :: cs) = some bs ↔
    ∃ d ds, hexDigit c = some d ∧ hexBits cs = some ds ∧ bs = bitsOf 4 d ++ ds := by
  rw [hexBits]
  cases hexDigit c <;> cases hexBits cs <;> simp [eq_comm]

theorem hexBits_eq_none_iff {hex : List Char} : hexBits hex = none ↔ ∃ c ∈ hex, hexDigit c = none := by
  induction hex with
  | nil => simp [hexBits]
  | cons c cs ih =>
    rw [hexBits, List.exists_mem_cons_iff, ← ih]
    cases hexDigit c <;> cases hexBits cs <;> simp

theorem hexToBits_eq_ok_iff {hex : List Char} {bs : List Bool} :
    hexToBits hex = .ok bs ↔ hex ≠ [] ∧ hexBits hex = some bs := by
  unfold hexToBits
  cases hex <;> cases hexBits _ <;> simp

theorem hexToBits_eq_error_iff {hex : List Char} {k : FailureKind} :
    hexToBits hex = .error k ↔ k = .invalidInput ∧ (hex = [] ∨ hexBits hex = none) := by
  unfold hexToBits
  cases hex <;> cases hexBits _ <;> simp [eq_comm]

theorem length_hexBits {hex : List Char} {bs : List Bool} (h : hexBits hex = some bs) : bs.length = 4 * hex.length := by
  induction hex generalizing bs with
  | nil => simp_all [hexBits]
  | cons c cs ih =>
    obtain ⟨d, ds, -, hds, rfl⟩ := hexBits_cons_eq_some_iff.mp h
    rw [List.length_append, length_bitsOf, ih hds, List.length_cons]
    omega

theorem bitsAt_append_zero {as bs : List Bool} {n : Nat} (h : as.length = n) : bitsAt (as ++ bs) 0 n = bitsValue as := by
  rw [bitsAt, List.drop_zero, List.take_left' h]

theorem bitsAt_append_add {as bs : List Bool} {m : Nat} (h : as.length = m) (p n : Nat) :
    bitsAt (as ++ bs) (m + p) n = bitsAt bs p n := by
  rw [bitsAt, ← List.drop_drop, List.drop_left' h, bitsAt]

/-- R43: the bits at `4k .. 4k+3` are the value of the character `k`. -/
theorem bitsAt_hexBits {hex : List Char} {bs : List Bool} (h : hexBits hex = some bs) {k : Nat} {c : Char}
    (hc : hex[k]? = some c) : hexDigit c = some (bitsAt bs (4 * k) 4) := by
  induction hex generalizing bs k with
  | nil => simp at hc
  | cons a cs ih =>
    obtain ⟨d, ds, hd, hds, rfl⟩ := hexBits_cons_eq_some_iff.mp h
    cases k with
    | zero =>
      obtain rfl : a = c := by simpa using hc
      rw [hd, Nat.mul_zero, bitsAt_append_zero (length_bitsOf 4 d), bitsValue_bitsOf,
        Nat.mod_eq_of_lt (b := 2 ^ 4) (hexDigit_lt hd)]
    | succ k =>
      rw [ih hds (by simpa using hc), Nat.mul_succ, Nat.add_comm, bitsAt_append_add (length_bitsOf 4 d)]

/-! The rendering (R71). -/

theorem bitsOf_four_bitsValue (a b c d : Bool) : bitsOf 4 (bitsValue [a, b, c, d]) = [a, b, c, d] := by
  revert a b c d
  decide

/-- R43, R44: the character of four bits converts to them. -/
theorem hexBits_hexChar_cons (a b c d : Bool) {cs : List Char} {ds : List Bool} (h : hexBits cs = some ds) :
    hexBits (hexChar (bitsValue [a, b, c, d]) :: cs) = some (a :: b :: c :: d :: ds) :=
  hexBits_cons_eq_some_iff.mpr
    ⟨_, ds, hexDigit_hexChar (bitsValue_lt [a, b, c, d]), h, by rw [bitsOf_four_bitsValue]; rfl⟩

/-- R71: the rendering of a bit string converts to it, padded to a multiple of four. -/
theorem hexBits_hexRender (bs : List Bool) : ∃ z, z ≤ 3 ∧ (bs.length + z) % 4 = 0 ∧
    hexBits (hexRender bs) = some (bs ++ List.replicate z false) := by
  fun_induction hexRender bs with
  | case1 => exact ⟨0, by decide, rfl, rfl⟩
  | case2 a => exact ⟨3, by decide, by simp, hexBits_hexChar_cons a false false false rfl⟩
  | case3 a b => exact ⟨2, by decide, by simp, hexBits_hexChar_cons a b false false rfl⟩
  | case4 a b c => exact ⟨1, by decide, by simp, hexBits_hexChar_cons a b c false rfl⟩
  | case5 a b c d rest ih =>
    obtain ⟨z, hz, hlen, hbits⟩ := ih
    exact ⟨z, hz, by simp only [List.length_cons]; omega, hexBits_hexChar_cons a b c d hbits⟩

theorem hexRender_ne_nil {bs : List Bool} (h : bs ≠ []) : hexRender bs ≠ [] := by
  fun_cases hexRender bs
  case case1 => exact absurd rfl h
  all_goals exact List.cons_ne_nil _ _

/-- R62: every encoding has the three bits of its type. -/
theorem enc_ne_nil (t : Tree) : t.enc ≠ [] := by
  cases t <;> simp [Tree.enc, bitsOf]

end Sys2Proof.Machine

open Sys2Proof.Machine in
/-- Settles O5, by the recursion of the rendering: four bits a character, and a partial last character padded. -/
theorem hexRenderingConvertsBack : Obligations.HexRenderingConvertsBack := by
  intro t
  obtain ⟨z, hz, hlen, hbits⟩ := hexBits_hexRender t.enc
  exact ⟨z, hz, hlen, hexToBits_eq_ok_iff.mpr ⟨hexRender_ne_nil (enc_ne_nil t), hbits⟩⟩

open Sys2Proof.Machine in
/-- Settles O6: the four digits of a value below 16, read back. -/
theorem converterGivesFourBitsADigit : Obligations.ConverterGivesFourBitsADigit := by
  intro hex bs h
  obtain ⟨-, hbits⟩ := hexToBits_eq_ok_iff.mp h
  exact ⟨length_hexBits hbits, fun _ _ hc => bitsAt_hexBits hbits hc⟩

open Sys2Proof.Machine in
/-- Settles O7: the characters without a value are those outside the 22. -/
theorem converterFailsOnOtherCharacters : Obligations.ConverterFailsOnOtherCharacters := by
  intro hex
  refine ⟨?_, fun k h => (hexToBits_eq_error_iff.mp h).1⟩
  simp only [hexToBits_eq_error_iff, hexBits_eq_none_iff, hexDigit_eq_none_iff, true_and]
end

section
/-! PROOF. The functional view of the parse reads no bit at or after the end of the packet it returns (R50, R84, R89). -/
namespace Sys2Proof.Machine

open Sys2Proof

/-! Two bit strings with the same first `m` bits. -/

section SamePrefix

variable {bs bs' : List Bool} {m : Nat}

theorem take_eq_of_le {n : Nat} (h : bs'.take m = bs.take m) (hn : n ≤ m) : bs'.take n = bs.take n := by
  have := congrArg (List.take n) h
  rwa [List.take_take, List.take_take, Nat.min_eq_left hn] at this

theorem take_drop_eq_of_take_eq {p n : Nat} (h : bs'.take m = bs.take m) (hn : p + n ≤ m) :
    (bs'.drop p).take n = (bs.drop p).take n := by
  rw [List.take_drop, List.take_drop, take_eq_of_le h hn]

theorem bitsAt_eq_of_take_eq {p n : Nat} (h : bs'.take m = bs.take m) (hn : p + n ≤ m) :
    bitsAt bs' p n = bitsAt bs p n :=
  congrArg bitsValue (take_drop_eq_of_take_eq h hn)

theorem le_length_of_take_eq (h : bs'.take m = bs.take m) (hm : m ≤ bs.length) : m ≤ bs'.length := by
  have := congrArg List.length h
  rw [List.length_take, List.length_take] at this
  omega

end SamePrefix

/-! The literal (R85). -/

/-- R85: the groups that are read are a front part of the bits, and what follows it is not looked at. -/
theorem parseGroups_reads_prefix {bs : List Bool} {q u v q' : Nat} (h : parseGroups bs q u = .ok (v, q')) :
    ∃ groups tail, bs = groups ++ tail ∧ q' = q + groups.length ∧
      ∀ rest, parseGroups (groups ++ rest) q u = .ok (v, q') := by
  fun_induction parseGroups bs q u with
  | case1 n3 n2 n1 n0 _ q u _ ih =>
    obtain ⟨groups, tail, rfl, rfl, hrest⟩ := ih h
    exact ⟨true :: n3 :: n2 :: n1 :: n0 :: groups, tail, rfl, by simp only [List.length_cons]; omega,
      fun rest => by simpa [parseGroups] using hrest rest⟩
  | case2 more n3 n2 n1 n0 tail q u u' hmore =>
    obtain ⟨rfl, rfl⟩ := Prod.mk.inj (Except.ok.inj h)
    exact ⟨[more, n3, n2, n1, n0], tail, rfl, rfl, fun rest => by simp [parseGroups, hmore, u']⟩
  | case3 => cases h

theorem parseLiteral_of_groups {bs : List Bool} {p v q : Nat}
    (h : parseGroups (bs.drop (p + 3)) (p + 3) 0 = .ok (v, q)) (hv : (v : Int) ≤ intMax) :
    parseLiteral bs p = .ok (.lit v p (q - p)) := by
  simp only [parseLiteral, h]
  exact if_neg (not_lt.mpr hv)

theorem parseLiteral_of_take_eq {bs bs' : List Bool} {p : Nat} {t : Packet} (h : parseLiteral bs p = .ok t)
    (hsame : bs'.take (p + t.size) = bs.take (p + t.size)) : parseLiteral bs' p = .ok t := by
  obtain ⟨v, q, hg, hv, rfl⟩ := parseLiteral_ok h
  obtain ⟨groups, tail, hbs, rfl, hrest⟩ := parseGroups_reads_prefix hg
  have hgroups : (bs'.drop (p + 3)).take groups.length = groups := by
    rw [take_drop_eq_of_take_eq hsame (by rw [Packet.size]; omega), hbs, List.take_left]
  refine parseLiteral_of_groups ?_ hv
  rw [← List.take_append_drop groups.length (bs'.drop (p + 3)), hgroups]
  exact hrest _

/-! The operator (R86). -/

theorem parseChildren_congr {parse parse' : Nat → Except Raise Packet} {c q q' : Nat} {ts : List Packet}
    (h : parseChildren parse c q = .ok (ts, q'))
    (hparse : ∀ p t, q ≤ p → p + t.size ≤ q' → parse p = .ok t → parse' p = .ok t) :
    parseChildren parse' c q = .ok (ts, q') := by
  induction c generalizing q ts with
  | zero => exact h
  | succ c ih =>
    obtain ⟨t, ts', ht, hts, rfl⟩ := parseChildren_succ_ok h
    have ht' := hparse q t le_rfl (parseChildren_le hts) ht
    have hts' := ih hts fun p t hp => hparse p t (by omega)
    simp only [parseChildren, ht', hts']

theorem parseOperator_of_children {parse : Nat → Except Raise Packet} {bs : List Bool} {p k q : Nat} {ts : List Packet}
    (hfit : 7 ≤ bs.length - p) (h : parseChildren parse (bitsAt bs (p + 3) 4) (p + 7) = .ok (ts, q)) :
    parseOperator parse bs p k = .ok (.op (Op.ofType k) (bitsAt bs (p + 3) 4) ts p (q - p)) := by
  rw [parseOperator, if_neg (by omega)]
  simp only [h]

theorem parseOperator_of_take_eq {parse parse' : Nat → Except Raise Packet} {bs bs' : List Bool} {p k : Nat} {t : Packet}
    (h : parseOperator parse bs p k = .ok t) (hfits : p + t.size ≤ bs.length)
    (hsame : bs'.take (p + t.size) = bs.take (p + t.size))
    (hparse : ∀ q u, p + 7 ≤ q → q + u.size ≤ p + t.size → parse q = .ok u → parse' q = .ok u) :
    parseOperator parse' bs' p k = .ok t := by
  obtain ⟨-, ts, q, hts, rfl⟩ := parseOperator_ok h
  have hq : p + 7 ≤ q := parseChildren_le hts
  have hend : p + (q - p) = q := by omega
  rw [Packet.size, hend] at hsame hfits hparse
  have hlen := le_length_of_take_eq hsame hfits
  have hcount : bitsAt bs' (p + 3) 4 = bitsAt bs (p + 3) 4 := bitsAt_eq_of_take_eq hsame (by omega)
  have hts' := parseChildren_congr hts hparse
  rw [← hcount] at hts' ⊢
  exact parseOperator_of_children (by omega) hts'

/-! The packet (R81). -/

theorem parsePacket_of_literal {depth : Nat} {bs : List Bool} {p : Nat} {t : Packet} (hfit : 3 ≤ bs.length - p)
    (hc : classify bs p = 4) (h : parseLiteral bs p = .ok t) : parsePacket (depth + 1) bs p = .ok t := by
  simp [parsePacket, hc, h, Nat.not_lt.mpr hfit]

theorem parsePacket_of_operator {depth : Nat} {bs : List Bool} {p : Nat} {t : Packet} (hfit : 3 ≤ bs.length - p)
    (hc : classify bs p < 4) (h : parseOperator (parsePacket depth bs) bs p (classify bs p) = .ok t) :
    parsePacket (depth + 1) bs p = .ok t := by
  rw [parsePacket, if_neg (by omega)]
  simp only [if_neg (show ¬ classify bs p ≥ 5 by omega), if_neg (show classify bs p ≠ 4 by omega), h]

/-- R50, R90: a packet is parsed alike from every bit string with the same bits up to its end, under every bound of the depth
that its size cannot exceed. -/
theorem parsePacket_of_take_eq {depth depth' : Nat} {bs bs' : List Bool} {p : Nat} {t : Packet}
    (h : parsePacket depth bs p = .ok t) (hdepth : t.size < 7 * depth')
    (hsame : bs'.take (p + t.size) = bs.take (p + t.size)) : parsePacket depth' bs' p = .ok t := by
  induction depth generalizing depth' p t with
  | zero => cases h
  | succ depth ih =>
    obtain ⟨d, rfl⟩ : ∃ d, depth' = d + 1 := Nat.exists_eq_add_one.mpr (by omega)
    have hext := parsePacket_extent h
    have hfits := hext.fits
    have hseven : 7 ≤ t.size := by
      have hge := hext.size_ge
      cases t <;> simp only [packetCount] at hge <;> omega
    have hlen := le_length_of_take_eq hsame hfits
    have hc : classify bs' p = classify bs p := bitsAt_eq_of_take_eq hsame (by omega)
    obtain ⟨-, ⟨h4, hlit⟩ | ⟨hlt, hop⟩⟩ := parsePacket_succ_ok h
    · exact parsePacket_of_literal (by omega) (hc.trans h4) (parseLiteral_of_take_eq hlit hsame)
    · refine parsePacket_of_operator (by omega) (hc ▸ hlt) ?_
      rw [hc]
      exact parseOperator_of_take_eq hop hfits hsame fun q u hq hu hpar =>
        ih hpar (by omega) (take_eq_of_le hsame hu)

end Sys2Proof.Machine

open Sys2Proof.Machine in
/-- Settles O52: any tail leaves the bits of the outermost packet as they are, and their number bounds the depth. -/
theorem trailingBitsAreIgnored : Obligations.TrailingBitsAreIgnored := by
  intro bs rest t h
  have hfits : 0 + t.size ≤ bs.length := (parsePacket_extent h).fits
  have htake : (bs.take t.size).length = t.size := by
    rw [List.length_take]
    omega
  refine parsePacket_of_take_eq h ?_ ?_
  · rw [List.length_append, htake]
    omega
  · rw [Nat.zero_add, List.take_left' htake]
end

section
/-! PROOF. The header's encoding and its decoding undo each other (R61 to R66). -/
namespace Sys2Proof

/-- R64: the count field reads back as the count that it spells. -/
theorem decodeCount_eq_ok_iff {operator : BitVec 4 → Instr} {bs rest : List Bool} {i : Instr} :
    decodeCount operator bs = .ok (i, rest) ↔ ∃ c, i = operator c ∧ bs = bitsOf 4 c.toNat ++ rest := by
  constructor
  · fun_cases decodeCount operator bs
    case case1 =>
      intro h
      obtain ⟨rfl, rfl⟩ := Prod.mk.inj (Except.ok.inj h)
      exact ⟨_, rfl, by rw [Machine.toNat_nibble, Machine.bitsOf_four_bitsValue]; rfl⟩
    case case2 => exact nofun
  · rintro ⟨c, rfl, rfl⟩
    have hc : BitVec.ofNat 4 (bitsValue (bitsOf 4 c.toNat)) = c := by
      rw [Machine.bitsValue_bitsOf, Nat.mod_eq_of_lt c.isLt, BitVec.ofNat_toNat, BitVec.setWidth_eq]
    exact congrArg (fun c => Except.ok (operator c, rest)) hc

/-- R63: a header followed by any bits decodes to itself, an operator's by its count field. -/
theorem decode_encode (i : Instr) (rest : List Bool) : decode (encode i ++ rest) = .ok (i, rest) := by
  cases i with
  | sum c => exact decodeCount_eq_ok_iff.mpr ⟨c, rfl, rfl⟩
  | product c => exact decodeCount_eq_ok_iff.mpr ⟨c, rfl, rfl⟩
  | min c => exact decodeCount_eq_ok_iff.mpr ⟨c, rfl, rfl⟩
  | max c => exact decodeCount_eq_ok_iff.mpr ⟨c, rfl, rfl⟩
  | lit => rfl
  | illegal5 => rfl
  | illegal6 => rfl
  | illegal7 => rfl

/-- R63, R66: no other bits decode to a header than its encoding. -/
theorem eq_encode_of_decode {bs rest : List Bool} {i : Instr} : decode bs = .ok (i, rest) → bs = encode i ++ rest := by
  fun_cases decode bs
  case case9 => exact nofun
  case case5 | case6 | case7 | case8 =>
    intro h
    obtain ⟨rfl, rfl⟩ := Prod.mk.inj (Except.ok.inj h)
    rfl
  all_goals
    intro h
    obtain ⟨c, rfl, rfl⟩ := decodeCount_eq_ok_iff.mp h
    rfl

end Sys2Proof

open Sys2Proof in
/-- Settles O1: each of the eight is the encoding of its packet type, and the two short ones lack a field. -/
theorem writtenOutHeadersDecode : Obligations.WrittenOutHeadersDecode :=
  ⟨decode_encode (.sum 3) [], decode_encode (.product 2) [], decode_encode (.min 0) [], decode_encode (.max 15) [],
    decode_encode .lit _, decode_encode .illegal5 [], decode_encode .illegal6 [], decode_encode .illegal7 [], rfl, rfl⟩

/-- Settles O2, packet type by packet type. -/
theorem decodingAnEncodedHeader : Obligations.DecodingAnEncodedHeader := Sys2Proof.decode_encode

/-- Settles O3, row by row of the decoder. -/
theorem decodedBitsSpellTheHeader : Obligations.DecodedBitsSpellTheHeader := fun _ _ _ => Sys2Proof.eq_encode_of_decode
end

section
/-! PROOF. The parse of an encoded tree is the tree's own packet (R71, R84 to R86). -/
namespace Sys2Proof.Machine

open Sys2Proof

/-! The size (R71). -/

theorem length_encodeGroups (g v : Nat) : (encodeGroups g v).length = 5 * g := by
  induction g with
  | zero => rfl
  | succ g ih =>
    rw [encodeGroups, List.length_cons, List.length_append, length_bitsOf, ih]
    omega

theorem size_packetAt (t : Tree) (p : Nat) : (t.packetAt p).size = t.enc.length := by
  cases t with
  | lit g v => simp [Tree.packetAt, Packet.size, Tree.enc, length_encodeGroups]
  | op o ts =>
    simp only [Tree.packetAt, Packet.size, Tree.enc, List.length_append, length_bitsOf]

/-! The header (R63, R64). -/

theorem tid_lt_four (o : Op) : o.tid < 4 := by
  cases o <;> decide

@[simp] theorem ofType_tid (o : Op) : Op.ofType o.tid = o := by
  cases o <;> rfl

/-- R9: a field that holds the digits of a number which fits reads as that number. -/
theorem bitsAt_of_drop_eq {bs rest : List Bool} {p n v : Nat} (h : bs.drop p = bitsOf n v ++ rest) (hv : v < 2 ^ n) :
    bitsAt bs p n = v := by
  rw [bitsAt, h, List.take_left' (length_bitsOf n v), bitsValue_bitsOf, Nat.mod_eq_of_lt hv]

theorem drop_add_of_drop_eq {bs as rest : List Bool} {p n : Nat} (h : bs.drop p = as ++ rest) (hn : as.length = n) :
    bs.drop (p + n) = rest := by
  rw [← List.drop_drop, h, List.drop_left' hn]

/-! The literal (R85). -/

/-- R85: one group, its value bits being a hexadecimal digit. -/
theorem parseGroups_digit {more : Bool} {d : Nat} (hd : d < 16) (rest : List Bool) (q u : Nat) :
    parseGroups (more :: (bitsOf 4 d ++ rest)) q u =
      if more then parseGroups rest (q + 5) (u * 16 + d) else .ok (u * 16 + d, q + 5) := by
  have hdigit : bitsValue (bitsOf 4 d) = d := by rw [bitsValue_bitsOf, Nat.mod_eq_of_lt (b := 2 ^ 4) hd]
  conv_rhs => rw [← hdigit]
  rfl

/-- R71, R85: the groups of a value append its low `4 * g` bits to the value so far. -/
theorem parseGroups_encodeGroups {g : Nat} (hg : 1 ≤ g) (v : Nat) (rest : List Bool) (q u : Nat) :
    parseGroups (encodeGroups g v ++ rest) q u = .ok (u * 16 ^ g + v % 16 ^ g, q + 5 * g) := by
  induction g, hg using Nat.le_induction generalizing q u with
  | base =>
    rw [encodeGroups, List.cons_append, List.append_assoc, parseGroups_digit (Nat.mod_lt _ (by decide))]
    simp
  | succ g hg ih =>
    rw [encodeGroups, List.cons_append, List.append_assoc, parseGroups_digit (Nat.mod_lt _ (by decide)),
      if_pos (by simp; omega), ih, Nat.mod_pow_succ]
    exact congrArg Except.ok (Prod.ext (by ring) (by ring))

theorem parseLiteral_encodeGroups {bs rest : List Bool} {p g v : Nat} (hb : bs.drop (p + 3) = encodeGroups g v ++ rest)
    (hg : 1 ≤ g) (hfit : v < 16 ^ g) (hmax : (v : Int) ≤ intMax) : parseLiteral bs p = .ok (.lit v p (3 + 5 * g)) := by
  have hgroups : parseGroups (bs.drop (p + 3)) (p + 3) 0 = .ok (v, p + 3 + 5 * g) := by
    rw [hb, parseGroups_encodeGroups hg, Nat.mod_eq_of_lt hfit, Nat.zero_mul, Nat.zero_add]
  rw [parseLiteral_of_groups hgroups hmax, Nat.add_assoc, Nat.add_sub_cancel_left]

/-! The packet (R81, R86). -/

theorem wellFormed_lit_iff {g v : Nat} :
    (Tree.lit g v).wellFormed = true ↔ 1 ≤ g ∧ v < 16 ^ g ∧ (v : Int) ≤ intMax := by
  simp [Tree.wellFormed, and_assoc]

theorem wellFormed_op_iff {o : Op} {ts : List Tree} :
    (Tree.op o ts).wellFormed = true ↔ ts.length ≤ 15 ∧ Tree.wellFormedAll ts = true := by
  simp [Tree.wellFormed]

theorem wellFormedAll_cons_iff {t : Tree} {ts : List Tree} :
    Tree.wellFormedAll (t :: ts) = true ↔ t.wellFormed = true ∧ Tree.wellFormedAll ts = true := by
  simp [Tree.wellFormedAll]

/-- R64, R71: where an operator's encoding stands, its type field, its count field and its children's encodings stand. -/
theorem fields_of_encOp {bs rest : List Bool} {p : Nat} {o : Op} {ts : List Tree} (hlen : ts.length ≤ 15)
    (hb : bs.drop p = (Tree.op o ts).enc ++ rest) :
    7 ≤ bs.length - p ∧ classify bs p = o.tid ∧ bitsAt bs (p + 3) 4 = ts.length ∧
      bs.drop (p + 7) = Tree.encAll ts ++ rest := by
  rw [Tree.enc, List.append_assoc, List.append_assoc] at hb
  have hcount := drop_add_of_drop_eq hb (length_bitsOf 3 _)
  refine ⟨?_, bitsAt_of_drop_eq hb ((tid_lt_four o).trans (by decide)), bitsAt_of_drop_eq hcount (Nat.lt_succ_of_le hlen),
    drop_add_of_drop_eq (p := p + 3) hcount (length_bitsOf 4 _)⟩
  rw [← List.length_drop, hb, List.length_append, List.length_append, length_bitsOf, length_bitsOf]
  omega

mutual
/-- R71: a tree's encoding at `p` is parsed to its packet, under a bound of the depth that its length cannot exceed. -/
theorem parsePacket_enc {bs rest : List Bool} {p depth : Nat} {t : Tree} (hwf : t.wellFormed = true)
    (hdepth : t.enc.length < 7 * depth) (hb : bs.drop p = t.enc ++ rest) :
    parsePacket depth bs p = .ok (t.packetAt p) := by
  obtain ⟨d, rfl⟩ : ∃ d, depth = d + 1 := Nat.exists_eq_add_one.mpr (by omega)
  cases t with
  | lit g v =>
    obtain ⟨hg, hfit, hmax⟩ := wellFormed_lit_iff.mp hwf
    have hsize : 3 ≤ bs.length - p := by
      rw [← List.length_drop, hb]
      simp [Tree.enc]
    rw [Tree.enc, List.append_assoc] at hb
    exact parsePacket_of_literal hsize (bitsAt_of_drop_eq hb (by decide))
      (parseLiteral_encodeGroups (drop_add_of_drop_eq hb rfl) hg hfit hmax)
  | op o ts =>
    obtain ⟨hlen, hwfs⟩ := wellFormed_op_iff.mp hwf
    rw [Tree.enc, List.length_append, List.length_append, length_bitsOf, length_bitsOf] at hdepth
    obtain ⟨hsize, htype, hcount, hbs⟩ := fields_of_encOp hlen hb
    have hts : parseChildren (parsePacket d bs) (bitsAt bs (p + 3) 4) (p + 7) = _ :=
      hcount ▸ parseChildren_encAll hwfs (by omega) hbs
    refine parsePacket_of_operator (by omega) (htype ▸ tid_lt_four o) ?_
    rw [parseOperator_of_children hsize hts, hcount, htype, ofType_tid, Tree.packetAt, Nat.add_assoc,
      Nat.add_sub_cancel_left]
/-- The same of the encodings of consecutive trees (R62). -/
theorem parseChildren_encAll {bs rest : List Bool} {p depth : Nat} {ts : List Tree}
    (hwf : Tree.wellFormedAll ts = true) (hdepth : (Tree.encAll ts).length < 7 * depth)
    (hb : bs.drop p = Tree.encAll ts ++ rest) :
    parseChildren (parsePacket depth bs) ts.length p = .ok (Tree.packetsAt p ts, p + (Tree.encAll ts).length) := by
  cases ts with
  | nil => rfl
  | cons t ts =>
    obtain ⟨hwft, hwfs⟩ := wellFormedAll_cons_iff.mp hwf
    rw [Tree.encAll, List.length_append] at hdepth
    rw [Tree.encAll, List.append_assoc] at hb
    have hchild := parsePacket_enc (depth := depth) hwft (by omega) hb
    have hrest := parseChildren_encAll (depth := depth) hwfs (by omega) (drop_add_of_drop_eq hb rfl)
    simp only [List.length_cons, parseChildren, hchild, size_packetAt, hrest, Tree.packetsAt, Tree.encAll,
      List.length_append, Nat.add_assoc]
end

end Sys2Proof.Machine

open Sys2Proof.Machine in
/-- Settles O4, by induction on the tree: its encoding stands at offset 0, and the number of bits bounds the depth. -/
theorem parsingAnEncodedTree : Obligations.ParsingAnEncodedTree := by
  intro t rest hwf
  refine ⟨parsePacket_enc hwf ?_ List.drop_zero, size_packetAt t 0⟩
  rw [List.length_append]
  omega
end

section
/-! PROOF. Two steps of the parse phase: an illegal type raises (R87), and a group with more to follow is read (R125). -/
namespace Sys2Proof.Machine

open Sys2Proof

variable {s : State}

/-- R158: the fault entry is what the rule says of it. -/
theorem faultsWith_raiseFault (k : FailureKind) (p : Nat) (s : State) : FaultsWith k p s (raiseFault k p s) :=
  ⟨rfl, rfl, rfl, rfl, rfl, rfl, rfl, fun _ => rfl, rfl, le_rfl⟩

theorem illegalStep_eq (hs : s.status = .parse) (hp : s.psub = .hdr) :
    illegalStep s = .next (raiseFault .invalidPacketType s.pos s) := by
  simp only [illegalStep, hs, hp, headerIllegal]

theorem exec_lit_of_grp (hs : s.status = .parse) (hp : s.psub = .grp) : exec .lit s = groupStep s := by
  simp only [exec, execLit, literalStep, hs, hp]

/-- R61, R125: a group of five bits whose value has its first bit set has more to follow. -/
theorem group_of_sixteen_le (hfit : 5 ≤ s.len - s.pos) (hmore : 16 ≤ s.field s.pos 5) :
    s.group = some ⟨true, BitVec.ofNat 4 (s.field s.pos 5)⟩ := by
  have hlt : s.field s.pos 5 < 2 ^ 5 := by simpa [State.field, length_slice] using bitsValue_lt (s.slice s.pos 5)
  have hbit : (s.field s.pos 5).testBit 4 = true := by
    rw [Nat.testBit_eq_decide_div_mod_eq, decide_eq_true_eq]
    omega
  rw [State.group, if_neg (by omega), hbit]

theorem groupStep_of_more {g : Group} (hg : s.group = some g) (hm : g.more = true) :
    groupStep s = .next (readGroup g s) := by
  simp only [groupStep, hg, hm, if_true, readGroup]

end Sys2Proof.Machine

open Sys2Proof.Machine in
/-- Settles O30: the three types have the one step of an illegal type, which is the fault entry. -/
theorem illegalTypesRaise : Obligations.IllegalTypesRaise := by
  rintro i s (rfl | rfl | rfl) hs hp <;>
    exact ⟨_, illegalStep_eq hs hp, faultsWith_raiseFault _ _ _⟩

open Sys2Proof.Machine in
/-- Settles O32: the group is read, and it appends its value bits to LVAL and LOV. -/
theorem groupWithMoreToFollow : Obligations.GroupWithMoreToFollow := by
  intro s u hs hp hfit hu hmore
  have hg := group_of_sixteen_le hfit hmore
  refine ⟨_, (exec_lit_of_grp hs hp).trans (groupStep_of_more hg rfl), ?_, ?_⟩
  · simpa using holdsLiteral_readGroup hu ⟨true, BitVec.ofNat 4 (s.field s.pos 5)⟩
  · simp only [readGroup, hp]
end

section
/-! PROOF. The header steps of the legal packets (R123, R124), a group that does not fit, and the final group of a literal
(R125, R126). -/
namespace Sys2Proof.Machine

open Sys2Proof

variable {s t : State}

theorem exec_opInstr_of_hdr (o : Op) (c : BitVec 4) (hs : s.status = .parse) (hp : s.psub = .hdr) :
    exec (opInstr o c) s = .next (headerOperator o c s) := by
  simp only [exec_opInstr, operatorStep, hs, hp]

theorem exec_lit_of_hdr (hs : s.status = .parse) (hp : s.psub = .hdr) : exec .lit s = .next (headerLiteral s) := by
  simp only [exec, execLit, literalStep, hs, hp]

/-- R125: in a GRP step the literal packet makes the move of the engine. -/
theorem exec_lit_of_engineMove (hs : s.status = .parse) (hp : s.psub = .grp) (h : EngineMove s t) :
    exec .lit s = .next t := by
  rw [exec_lit_of_grp hs hp, ← engineStep_grp hs hp]
  exact h.engineStep_eq

/-- R61, R125: a group of five bits whose value has its first bit clear is the final one. -/
theorem group_of_lt_sixteen (hfit : 5 ≤ s.len - s.pos) (hlast : s.field s.pos 5 < 16) :
    s.group = some ⟨false, BitVec.ofNat 4 (s.field s.pos 5)⟩ := by
  rw [State.group, if_neg (by omega), Nat.testBit_lt_two_pow hlast]

/-- R125: the final group's value is its four value bits. -/
theorem holdsLiteral_readFinalGroup {u : Nat} (hu : HoldsLiteral s u) (hlast : s.field s.pos 5 < 16) :
    HoldsLiteral (readGroup ⟨false, BitVec.ofNat 4 (s.field s.pos 5)⟩ s) (u * 16 + s.field s.pos 5) := by
  simpa [Nat.mod_eq_of_lt hlast] using holdsLiteral_readGroup hu ⟨false, BitVec.ofNat 4 (s.field s.pos 5)⟩

/-- R126: the check passes for an exact value up to INT_MAX. -/
theorem literalOverflows_eq_false {u : Nat} (h : HoldsLiteral s u) (hu : (u : Int) ≤ intMax) :
    literalOverflows s.lov s.lval = false :=
  Bool.eq_false_iff.mpr fun ho => not_lt.mpr hu ((literalOverflows_iff h).mp ho)

/-- R126: where the check passes, LVAL has lost no bits. -/
theorem lov_eq_false {u : Nat} (h : HoldsLiteral s u) (hu : (u : Int) ≤ intMax) : s.lov = false :=
  (Bool.or_eq_false_iff.mp (literalOverflows_eq_false h hu)).1

/-- R125, R158: the reading of a group writes nothing visible, so a fault after it is a fault of the step. -/
theorem faultsWith_raiseFault_readGroup (k : FailureKind) (p : Nat) (g : Group) (s : State) :
    FaultsWith k p s (raiseFault k p (readGroup g s)) :=
  ⟨rfl, rfl, rfl, rfl, rfl, rfl, rfl, fun _ => rfl, rfl, le_rfl⟩

end Sys2Proof.Machine

open Sys2Proof.Machine in
/-- Settles O33: the final group leaves the exact value in LVAL and LOV at 0, so the check passes and the value is stored. -/
theorem finalGroupStoresTheValue : Obligations.FinalGroupStoresTheValue := by
  intro s u n hs hp hfit hu hlast hn hmax
  have hread := holdsLiteral_readFinalGroup hu hlast
  have hmove := EngineMove.groupFinal hs hp (group_of_lt_sixteen hfit hlast) rfl hn (literalOverflows_eq_false hread hmax)
  have hlov := lov_eq_false hread hmax
  obtain ⟨hval, -⟩ := hread
  rw [exec_lit_of_engineMove hs hp hmove, ← hval, ← hlov]
  rfl

open Sys2Proof.Machine in
/-- Settles O34: the exact value fails the check, and the fault names the start of the literal's own entry. -/
theorem finalGroupOverflows : Obligations.FinalGroupOverflows := by
  intro s u n hs hp hfit hu hlast hn hmax
  have hover := (literalOverflows_iff (holdsLiteral_readFinalGroup hu hlast)).mpr hmax
  have hmove := EngineMove.groupOverflow hs hp (group_of_lt_sixteen hfit hlast) rfl hn hover
  exact ⟨_, exec_lit_of_engineMove hs hp hmove, faultsWith_raiseFault_readGroup _ _ _ s⟩

open Sys2Proof.Machine in
/-- Settles O28: the step of all four operators is the header step, with or without children. -/
theorem operatorHeader : Obligations.OperatorHeader := by
  intro o c s hs hp
  rw [exec_opInstr_of_hdr o c hs hp]
  obtain ⟨hc, hstep⟩ | ⟨hc, hstep⟩ := headerOperator_cases o c s
  · rw [hstep, if_pos hc, State.ncnt]
  · rw [hstep, if_neg hc, State.ncnt]

open Sys2Proof.Machine in
/-- Settles O29: the literal's header step, whose writes are those of the rule. -/
theorem literalHeader : Obligations.LiteralHeader := fun _ hs hp => exec_lit_of_hdr hs hp

open Sys2Proof.Machine in
/-- Settles O31: there is no group to read, and the step is the fault entry at POS. -/
theorem groupThatDoesNotFit : Obligations.GroupThatDoesNotFit := fun s hs hp hcut =>
  ⟨_, exec_lit_of_engineMove hs hp (.groupCut hs hp (if_pos hcut)), faultsWith_raiseFault _ _ s⟩
end

section
/-! PROOF. A FOLD step, for all four operators: the first child seeds the accumulator, and a further child is reduced into it
as the functional view does it over exact integers (R102, R104 to R107, R133). -/
namespace Sys2Proof.Machine

open Sys2Proof

variable {s : State} {f : EFrame} {rest : List EFrame}

/-- R133: with a child still due in the top frame, one fewer is due after the step. -/
theorem foldStep_eq_afterFold (r : Reduction) (hk : s.estk = f :: rest) (hrem : 1 ≤ f.rem) :
    foldStep r s = .next (afterFold s f rest (foldAcc r f s.val) (foldOvf r f s.val s.ovf)) := by
  simp only [foldStep, hk, afterFold]
  by_cases hlast : f.rem = 1
  · rw [if_pos hlast, if_pos (by omega)]
  · rw [if_neg hlast, if_neg (by omega)]

theorem exec_opInstr_of_fold (o : Op) (c : BitVec 4) (hs : s.status = .eval) (he : s.esub = .fold)
    (hk : s.estk = f :: rest) (hrem : 1 ≤ f.rem) :
    exec (opInstr o c) s =
      .next (afterFold s f rest (foldAcc (opReduction o) f s.val) (foldOvf (opReduction o) f s.val s.ovf)) := by
  simp only [exec_opInstr, operatorStep, hs, he, foldStep_eq_afterFold _ hk hrem]

theorem leavesRange_eq_outsideRange (e : Int) : leavesRange e = outsideRange e := by
  rw [Bool.eq_iff_iff, outsideRange_iff_wrapInt_ne, ← toInt_wrapWord, leavesRange, decide_eq_true_eq, ne_comm]

/-- R104 to R107: the engine's word operations are the functional view's over the signed values. -/
theorem toInt_opReduction_value (o : Op) (a b : Word) :
    ((opReduction o).value a b).toInt = opValue o a.toInt b.toInt := by
  cases o with
  | sum | product => exact toInt_wrapWord _
  | min | max => exact apply_ite BitVec.toInt _ _ _

theorem opReduction_overflow (o : Op) (a b : Word) :
    (opReduction o).overflow a b = opOverflow o a.toInt b.toInt := by
  cases o with
  | sum | product => exact leavesRange_eq_outsideRange _
  | min | max => rfl

theorem opValue_min (a b : Int) : opValue .min a b = min a b := by
  rw [opValue, min_def]
  split <;> split <;> omega

theorem opValue_max (a b : Int) : opValue .max a b = max a b := by
  rw [opValue, max_def]
  split <;> split <;> omega

/-- R102, R133: a further child is folded in as the functional view folds it. -/
theorem exec_opInstr_of_fold_seeded (o : Op) (c : BitVec 4) (hs : s.status = .eval) (he : s.esub = .fold)
    (hk : s.estk = f :: rest) (hrem : 1 ≤ f.rem) (hseed : f.seeded = true) :
    ∃ r : Word, r.toInt = opValue o f.acc.toInt s.val.toInt ∧
      exec (opInstr o c) s =
        .next (afterFold s f rest r (s.ovf || opOverflow o f.acc.toInt s.val.toInt)) := by
  refine ⟨_, toInt_opReduction_value o f.acc s.val, ?_⟩
  rw [exec_opInstr_of_fold o c hs he hk hrem, foldAcc, foldOvf, if_pos hseed, if_pos hseed, opReduction_overflow]

end Sys2Proof.Machine

open Sys2Proof.Machine in
/-- Settles O38: a frame not seeded takes the value as it is, and its fold overflows nothing. -/
theorem firstChildSeedsTheAccumulator : Obligations.FirstChildSeedsTheAccumulator := by
  intro o c s f rest hs he hk hrem hseed
  have hseed' : ¬ f.seeded = true := Bool.eq_false_iff.mp hseed
  rw [exec_opInstr_of_fold o c hs he hk hrem, foldAcc, foldOvf, if_neg hseed', if_neg hseed']

open Sys2Proof.Machine in
/-- Settles O39: the fold of a further child, for SUM. -/
theorem sumFold : Obligations.SumFold := fun c _ _ _ hs he hk hrem hseed =>
  exec_opInstr_of_fold_seeded .sum c hs he hk hrem hseed

open Sys2Proof.Machine in
/-- Settles O40: the fold of a further child, for PRODUCT. -/
theorem productFold : Obligations.ProductFold := fun c _ _ _ hs he hk hrem hseed =>
  exec_opInstr_of_fold_seeded .product c hs he hk hrem hseed

open Sys2Proof.Machine in
/-- Settles O41: the fold of a further child, for MIN, which never overflows. -/
theorem minFold : Obligations.MinFold := by
  intro c s f rest hs he hk hrem hseed
  simpa only [opInstr, opValue_min, opOverflow, Bool.or_false] using
    exec_opInstr_of_fold_seeded .min c hs he hk hrem hseed

open Sys2Proof.Machine in
/-- Settles O42: the fold of a further child, for MAX, which never overflows. -/
theorem maxFold : Obligations.MaxFold := by
  intro c s f rest hs he hk hrem hseed
  simpa only [opInstr, opValue_max, opOverflow, Bool.or_false] using
    exec_opInstr_of_fold_seeded .max c hs he hk hrem hseed
end

section
/-! PROOF. The evaluation of the functional view against the unbounded integers: a tree's value lies in the range, and it is
the exact value, and not negative, where nothing overflowed (R109, R110). -/
namespace Sys2Proof.Machine

open Sys2Proof

/-! One operation. -/

/-- R109: the values that an evaluation may give. -/
def InRange (v : Int) : Prop := intMin ≤ v ∧ v ≤ intMax

theorem opValue_inRange (o : Op) {a b : Int} (ha : InRange a) (hb : InRange b) : InRange (opValue o a b) := by
  cases o with
  | sum | product => exact wrapInt_mem_range _
  | min | max => exact iteInduction (fun _ => hb) (fun _ => ha)

theorem wrapInt_of_outsideRange_eq_false {e : Int} (h : outsideRange e = false) : wrapInt e = e := by
  rwa [← Bool.not_eq_true, outsideRange_iff_wrapInt_ne, not_not] at h

/-- R110: an operation that does not overflow is the one over the unbounded integers. -/
theorem opValue_eq_opExact {o : Op} {a b : Int} (h : opOverflow o a b = false) : opValue o a b = opExact o a b := by
  cases o with
  | sum | product => exact wrapInt_of_outsideRange_eq_false h
  | min | max => rfl

/-- R110: no operation leads from values that are not negative to a negative one. -/
theorem opExact_nonneg (o : Op) {a b : Int} (ha : 0 ≤ a) (hb : 0 ≤ b) : 0 ≤ opExact o a b := by
  cases o with
  | sum => exact Int.add_nonneg ha hb
  | product => exact Int.mul_nonneg ha hb
  | min | max => exact iteInduction (fun _ => hb) (fun _ => ha)

/-! The fold over an operator's children (R102). -/

theorem foldFrom_inRange (o : Op) {acc : Int × Bool} {xs : List (Int × Bool)} (hacc : InRange acc.1)
    (hxs : ∀ x ∈ xs, InRange x.1) : InRange (foldFrom o acc xs).1 := by
  induction xs generalizing acc with
  | nil => exact hacc
  | cons x xs ih =>
    obtain ⟨hx, hxs⟩ := List.forall_mem_cons.mp hxs
    exact ih (opValue_inRange o hacc hx) hxs

/-- R110: a fold that ends without overflow met none, and it is the fold over the unbounded integers. -/
theorem foldFrom_exact {o : Op} {acc : Int × Bool} {xs : List (Int × Bool)} (h : (foldFrom o acc xs).2 = false) :
    acc.2 = false ∧ (∀ x ∈ xs, x.2 = false) ∧
      (foldFrom o acc xs).1 = (xs.map Prod.fst).foldl (opExact o) acc.1 := by
  induction xs generalizing acc with
  | nil => exact ⟨h, List.forall_mem_nil _, rfl⟩
  | cons x xs ih =>
    obtain ⟨hovf, hxs, hval⟩ := ih h
    obtain ⟨⟨hacc, hx⟩, hop⟩ : (acc.2 = false ∧ x.2 = false) ∧ opOverflow o acc.1 x.1 = false := by
      simpa only [Bool.or_eq_false_iff] using hovf
    refine ⟨hacc, List.forall_mem_cons.mpr ⟨hx, hxs⟩, ?_⟩
    rw [List.map_cons, List.foldl_cons, ← opValue_eq_opExact hop]
    exact hval

/-! What an evaluation that gives a value has computed. -/

theorem evaluate_op_ok {o : Op} {c p z : Nat} {ts : List Packet} {x : Int × Bool}
    (h : evaluate (.op o c ts p z) = .ok x) : ∃ y ys, evaluateAll ts = .ok (y :: ys) ∧ x = foldFrom o y ys := by
  rw [evaluate] at h
  split at h
  · cases h
  · split at h
    · cases h
    · rename_i xs hxs
      cases xs with
      | nil => cases h
      | cons y ys =>
        cases h
        exact ⟨y, ys, hxs, rfl⟩

theorem evaluateAll_cons_ok {t : Packet} {ts : List Packet} {xs : List (Int × Bool)}
    (h : evaluateAll (t :: ts) = .ok xs) :
    ∃ y ys, evaluate t = .ok y ∧ evaluateAll ts = .ok ys ∧ xs = y :: ys := by
  rw [evaluateAll] at h
  split at h
  · cases h
  · rename_i y hy
    split at h
    · cases h
    · rename_i ys hys
      cases h
      exact ⟨y, ys, hy, hys, rfl⟩

/-- R110, of a value with its overflow indicator and the exact value. -/
structure ExactUnlessOverflow (e : Option Int) (x : Int × Bool) : Prop where
  inRange : InRange x.1
  exact : x.2 = false → e = some x.1 ∧ 0 ≤ x.1

/-- R110, of the values of consecutive packets. -/
structure AllExactUnlessOverflow (es : Option (List Int)) (xs : List (Int × Bool)) : Prop where
  inRange : ∀ x ∈ xs, InRange x.1
  exact : (∀ x ∈ xs, x.2 = false) → es = some (xs.map Prod.fst) ∧ ∀ x ∈ xs, 0 ≤ x.1

theorem exactUnlessOverflow_lit {v : Nat} (hv : (v : Int) ≤ intMax) : ExactUnlessOverflow (some v) (v, false) where
  inRange := ⟨by simp only [intMin]; omega, hv⟩
  exact _ := ⟨rfl, Int.natCast_nonneg v⟩

theorem exactUnlessOverflow_op {o : Op} {c p z : Nat} {ts : List Packet} {y : Int × Bool} {ys : List (Int × Bool)}
    (h : AllExactUnlessOverflow (exactValues ts) (y :: ys)) :
    ExactUnlessOverflow (exactValue (.op o c ts p z)) (foldFrom o y ys) where
  inRange := foldFrom_inRange o (h.inRange y List.mem_cons_self) fun x hx => h.inRange x (List.mem_cons_of_mem y hx)
  exact hovf := by
    obtain ⟨hy, hys, hval⟩ := foldFrom_exact hovf
    obtain ⟨hex, hpos⟩ := h.exact (List.forall_mem_cons.mpr ⟨hy, hys⟩)
    obtain ⟨hypos, hyspos⟩ := List.forall_mem_cons.mp hpos
    rw [exactValue, hex, hval]
    refine ⟨rfl, List.foldlRecOn _ _ hypos fun a ha b hb => opExact_nonneg o ha ?_⟩
    exact List.forall_mem_map.mpr hyspos b hb

theorem allExactUnlessOverflow_cons {t : Packet} {ts : List Packet} {y : Int × Bool} {ys : List (Int × Bool)}
    (ht : ExactUnlessOverflow (exactValue t) y) (hts : AllExactUnlessOverflow (exactValues ts) ys) :
    AllExactUnlessOverflow (exactValues (t :: ts)) (y :: ys) where
  inRange := List.forall_mem_cons.mpr ⟨ht.inRange, hts.inRange⟩
  exact hovf := by
    obtain ⟨hy, hys⟩ := List.forall_mem_cons.mp hovf
    obtain ⟨hex, hpos⟩ := ht.exact hy
    obtain ⟨hexs, hposs⟩ := hts.exact hys
    rw [exactValues, hex, hexs]
    exact ⟨rfl, List.forall_mem_cons.mpr ⟨hpos, hposs⟩⟩

mutual
theorem evaluate_exactUnlessOverflow {t : Packet} {x : Int × Bool} (hwf : packetWf t = true) (h : evaluate t = .ok x) :
    ExactUnlessOverflow (exactValue t) x := by
  cases t with
  | lit v p z =>
    simp only [packetWf, Bool.and_eq_true, decide_eq_true_eq] at hwf
    obtain ⟨⟨hv, -⟩, -⟩ := hwf
    cases h
    exact exactUnlessOverflow_lit hv
  | op o c ts p z =>
    simp only [packetWf, Bool.and_eq_true] at hwf
    obtain ⟨-, hwfs⟩ := hwf
    obtain ⟨y, ys, hys, rfl⟩ := evaluate_op_ok h
    exact exactUnlessOverflow_op (evaluateAll_exactUnlessOverflow hwfs hys)
theorem evaluateAll_exactUnlessOverflow {ts : List Packet} {p : Nat} {xs : List (Int × Bool)}
    (hwf : packetsWf p ts = true) (h : evaluateAll ts = .ok xs) : AllExactUnlessOverflow (exactValues ts) xs := by
  cases ts with
  | nil =>
    cases h
    exact ⟨List.forall_mem_nil _, fun _ => ⟨rfl, List.forall_mem_nil _⟩⟩
  | cons t ts =>
    simp only [packetsWf, Bool.and_eq_true] at hwf
    obtain ⟨⟨-, hwft⟩, hwfs⟩ := hwf
    obtain ⟨y, ys, hy, hys, rfl⟩ := evaluateAll_cons_ok h
    exact allExactUnlessOverflow_cons (evaluate_exactUnlessOverflow hwft hy) (evaluateAll_exactUnlessOverflow hwfs hys)
end

end Sys2Proof.Machine

open Sys2Proof.Machine in
/-- Settles O53, by induction on the tree: a literal is in range by its well-formedness, and a fold keeps the range and, where
nothing overflows, the exact value and its sign. -/
theorem noOverflowMeansExact : Obligations.NoOverflowMeansExact := by
  intro t v ovf hwf h
  obtain ⟨⟨hmin, hmax⟩, hexact⟩ := evaluate_exactUnlessOverflow hwf h
  exact ⟨hmin, hmax, hexact⟩
end

section
/-! PROOF. What a HDR step decodes, in terms of the stream: the type and count fields, and the two ways a header is cut
(R123, R124). -/
namespace Sys2Proof.Machine

open Sys2Proof

variable {bs : List Bool} {p : Nat}

/-- R81: fewer than three bits are no type field. -/
theorem decode_of_length_lt_three {l : List Bool} (h : l.length < 3) : decode l = .error .typeDoesNotFit := by
  match l, h with
  | [], _ => rfl
  | [a], _ => cases a <;> rfl
  | [a, b], _ => cases a <;> cases b <;> rfl

/-- R86: fewer than four bits are no count field. -/
theorem decodeCount_of_length_lt_four {operator : BitVec 4 → Instr} {l : List Bool} (h : l.length < 4) :
    decodeCount operator l = .error .countDoesNotFit := by
  match l, h with
  | [], _ => rfl
  | [_], _ => rfl
  | [_, _], _ => rfl
  | [_, _, _], _ => rfl

theorem decode_typeCut (h : bs.length - p < 3) : decode ((bs.drop p).take 7) = .error .typeDoesNotFit :=
  decode_of_length_lt_three (by simp; omega)

/-- R63, R66: the header of a type 5 to 7. -/
theorem decode_of_five_le_classify (h3 : 3 ≤ bs.length - p) (h : 5 ≤ classify bs p) :
    ∃ i rest, decode ((bs.drop p).take 7) = .ok (i, rest) ∧ i.legal = false := by
  have hlen : 3 ≤ (bs.drop p).length := by simpa using h3
  rw [classify, bitsAt] at h
  match bs.drop p, hlen, h with
  | b2 :: b1 :: b0 :: l, _, h =>
    revert h
    cases b2 <;> cases b1 <;> cases b0 <;> simp [bitsValue, decode, Instr.legal]

/-- R86: the type of an operator whose count does not fit. -/
theorem decode_countCut (h3 : 3 ≤ bs.length - p) (h7 : bs.length - p < 7) (h : classify bs p < 4) :
    decode ((bs.drop p).take 7) = .error .countDoesNotFit := by
  have hlen : (bs.drop p).length = bs.length - p := List.length_drop
  rw [classify, bitsAt] at h
  match bs.drop p, hlen, h with
  | [], hlen, _ | [_], hlen, _ | [_, _], hlen, _ => simp at hlen; omega
  | b2 :: b1 :: b0 :: l, hlen, h =>
    have hl : (l.take 4).length < 4 := by simp at hlen ⊢; omega
    revert h
    cases b2 <;> cases b1 <;> cases b0 <;> simp [bitsValue, decode, decodeCount_of_length_lt_four hl]

/-! R64: a count field as a number. -/

theorem toNat_ofNat_four {c : Nat} (h : c < 2 ^ 4) : (BitVec.ofNat 4 c).toNat = c :=
  (BitVec.toNat_ofNat _ _).trans (Nat.mod_eq_of_lt h)

theorem ofNat_four_eq_zero_iff {c : Nat} (h : c < 2 ^ 4) : BitVec.ofNat 4 c = 0 ↔ c = 0 := by
  rw [← BitVec.toNat_inj, toNat_ofNat_four h]
  rfl

end Sys2Proof.Machine
end

section
/-! PROOF. Where the functional view's parse raises, the engine raises the same, and the run shows it (R81 to R87, R140). -/
namespace Sys2Proof.Machine

open Sys2Proof

variable {s t : State} {bs : List Bool} {depth : Nat}

/-! The end of a run. -/

/-- The engine's run from `s` ends with the outcome `w`. -/
def EndsWith (s : State) (w : Verdict) : Prop := ∃ k t, EngineRun k s t ∧ t.verdict = some w

theorem EngineRun.endsWith {k : Nat} {w : Verdict} (h : EngineRun k s t) : EndsWith t w → EndsWith s w :=
  fun ⟨j, u, hrun, hu⟩ => ⟨k + j, u, h.trans hrun, hu⟩

theorem EngineMove.endsWith {w : Verdict} (h : EngineMove s t) : EndsWith t w → EndsWith s w :=
  (EngineRun.single h).endsWith

/-- The engine's run from `s` ends with the fault that the functional view raises. -/
def EndsInFault (s : State) (r : Raise) : Prop := EndsWith s (.failed r.kind r.pos)

theorem EngineMove.endsInFault {k : FailureKind} {p : Nat} (h : EngineMove s (raiseFault k p t)) :
    EndsInFault s ⟨k, p⟩ := ⟨1, _, .single h, rfl⟩

/-! The literal (R85, R125, R126). -/

/-- How the groups of a literal at `p` raise: one of them is cut, or their exact value is too large. -/
def GroupsRaise (p : Nat) (groups : Except Raise (Nat × Nat)) (r : Raise) : Prop :=
  groups = .error r ∨ ∃ v q, groups = .ok (v, q) ∧ (v : Int) > intMax ∧ r = ⟨.literalOverflow, p⟩

theorem groupsRaise_of_parseLiteral {p : Nat} {r : Raise} (h : parseLiteral bs p = .error r) :
    GroupsRaise p (parseGroups (bs.drop (p + 3)) (p + 3) 0) r := by
  unfold parseLiteral at h
  split at h
  next hg =>
    cases h
    exact .inl hg
  next v q hg =>
    split at h <;> rename_i hv <;> cases h
    exact .inr ⟨v, q, hg, hv, rfl⟩

/-- R125: with fewer than five bits left there is no group. -/
theorem group_of_length_lt_five (h : (s.stream.drop s.pos).length < 5) : s.group = none := by
  rw [List.length_drop, length_stream] at h
  exact if_pos h

theorem endsInFault_of_groups {q u : Nat} {n : Node} {r : Raise} (h : GroupsRaise n.start (parseGroups bs q u) r)
    (hs : s.status = .parse) (hp : s.psub = .grp) (hpos : s.pos = q) (hbs : s.stream.drop q = bs)
    (hu : HoldsLiteral s u) (hn : s.node[s.cur]? = some n) : EndsInFault s r := by
  fun_induction parseGroups bs q u generalizing s with
  | case1 n3 n2 n1 n0 rest q u =>
    rename_i ih
    subst hpos
    have hread := holdsLiteral_readGroup hu ⟨true, BitVec.ofNat 4 (bitsValue [n3, n2, n1, n0])⟩
    rw [toNat_nibble] at hread
    have hrest : s.stream.drop (s.pos + 5) = rest := by rw [← List.drop_drop, hbs]; rfl
    exact (EngineMove.groupMore hs hp (group_of_stream hbs) rfl).endsWith
      (@ih (readGroup _ s) h hs rfl rfl hrest hread hn)
  | case2 more n3 n2 n1 n0 rest q u =>
    rename_i hmore
    subst hpos
    obtain h | ⟨v, q, h, hv, rfl⟩ := h <;> cases h
    have hread := holdsLiteral_readGroup hu ⟨more, BitVec.ofNat 4 (bitsValue [n3, n2, n1, n0])⟩
    rw [toNat_nibble] at hread
    exact (EngineMove.groupOverflow hs hp (group_of_stream hbs) (by simpa using hmore) hn
      ((literalOverflows_iff hread).mpr hv)).endsInFault
  | case3 bs q u hshort =>
    subst hpos
    obtain h | ⟨v, q, h, -, -⟩ := h <;> cases h
    have hlen : bs.length < 5 := by
      by_contra hge
      obtain ⟨b4, b3, b2, b1, b0, rest, rfl⟩ := exists_cons_of_five_le (Nat.le_of_not_lt hge)
      exact hshort b4 b3 b2 b1 b0 rest rfl
    exact (EngineMove.groupCut hs hp (group_of_length_lt_five (hbs ▸ hlen))).endsInFault

theorem endsInFault_of_parseLiteral {r : Raise} (h : AtHeader bs s) (h3 : 3 ≤ bs.length - s.pos)
    (hc : classify bs s.pos = 4) (hr : parseLiteral bs s.pos = .error r) : EndsInFault s r := by
  obtain ⟨rest, hd⟩ := decode_of_classify_eq_four h3 hc
  refine (EngineMove.literal h.status h.psub (h.decode_window.trans hd)).endsWith ?_
  exact endsInFault_of_groups (n := ⟨.lit, 0, 0, s.pos, 0⟩) (groupsRaise_of_parseLiteral hr) h.status rfl rfl
    (by rw [← h.stream]; rfl) ⟨rfl, by simp⟩ (by simp)

/-! The operator (R86). -/

/-- The engine raises what the parse under the bound `depth` raises, at every boundary where the bound is not met (R90). -/
def RaisesAlike (bs : List Bool) (depth : Nat) : Prop :=
  ∀ (s : State) (r : Raise), AtHeader bs s → s.pos ≤ bs.length → bs.length < s.pos + 7 * depth →
    parsePacket depth bs s.pos = .error r → EndsInFault s r

/-- The children before the one that raises are read, each with its RET step. -/
theorem endsInFault_of_parseChildren {i c : Nat} {rest : List PFrame} {r : Raise} (halike : RaisesAlike bs depth)
    (hs : AtHeader bs s) (hp : s.pos ≤ bs.length) (hd : bs.length < s.pos + 7 * depth) (hf : s.pstk = ⟨i, c⟩ :: rest)
    (h : parseChildren (parsePacket depth bs) c s.pos = .error r) : EndsInFault s r := by
  induction c generalizing s with
  | zero => cases h
  | succ c ih =>
    rw [parseChildren] at h
    split at h
    next hr =>
      cases h
      exact halike s _ hs hp hd hr
    next t ht =>
      split at h <;> cases h
      next hr =>
        have hext := parsePacket_extent ht
        obtain ⟨k, lval, lov, -, hrun⟩ := readsPacket_of_parsePacket hs ht
        have hc : c ≠ 0 := by
          rintro rfl
          cases hr
        have hmove := (engineMove_return hext.start (lval := lval) (lov := lov) hs.status hf).2 (by simp; omega)
        have hdepth : bs.length < s.pos + t.size + 7 * depth := by omega
        exact hrun.endsWith (hmove.endsWith (ih ⟨hs.status, rfl, hs.stream⟩ hext.fits hdepth rfl hr))

theorem endsInFault_of_parseOperator {r : Raise} (halike : RaisesAlike bs depth) (hs : AtHeader bs s)
    (h3 : 3 ≤ bs.length - s.pos) (hd : bs.length < s.pos + 7 + 7 * depth) (hc : classify bs s.pos < 4)
    (h : parseOperator (parsePacket depth bs) bs s.pos (classify bs s.pos) = .error r) : EndsInFault s r := by
  unfold parseOperator at h
  split at h
  next h7 =>
    cases h
    exact (EngineMove.countCut hs.status hs.psub (hs.decode_window.trans (decode_countCut h3 h7 hc))).endsInFault
  next h7 =>
    simp only at h
    split at h <;> cases h
    next hr =>
      obtain ⟨rest, hdec⟩ := decode_of_classify_lt_four (by omega) hc
      have hlt : bitsAt bs (s.pos + 3) 4 < 2 ^ 4 := bitsAt_lt bs (s.pos + 3) 4
      have hne : bitsAt bs (s.pos + 3) 4 ≠ 0 := fun h0 => by
        rw [h0] at hr
        cases hr
      have hmove := EngineMove.descend hs.status hs.psub (hs.decode_window.trans hdec)
        (mt (ofNat_four_eq_zero_iff hlt).mp hne)
      rw [toNat_ofNat_four hlt] at hmove
      exact hmove.endsWith
        (endsInFault_of_parseChildren halike ⟨hs.status, rfl, hs.stream⟩ (by dsimp only; omega) hd rfl hr)

/-! The packet (R81). -/

theorem raisesAlike (bs : List Bool) (depth : Nat) : RaisesAlike bs depth := by
  induction depth with
  | zero => exact fun s r _ _ hd _ => absurd hd (by omega)
  | succ depth ih =>
    intro s r hs hp hd h
    rw [parsePacket] at h
    split at h
    next hcut =>
      cases h
      exact (EngineMove.typeCut hs.status hs.psub (hs.decode_window.trans (decode_typeCut hcut))).endsInFault
    next h3 =>
      replace h3 := Nat.le_of_not_lt h3
      simp only at h
      split at h
      next h5 =>
        cases h
        obtain ⟨i, rest, hdec, hi⟩ := decode_of_five_le_classify h3 h5
        exact (EngineMove.illegal hs.status hs.psub (hs.decode_window.trans hdec) hi).endsInFault
      next h5 =>
        split at h
        next h4 => exact endsInFault_of_parseLiteral hs h3 h4 h
        next h4 => exact endsInFault_of_parseOperator ih hs h3 (by omega) (by omega) h

/-- R84: the parse of a run. -/
theorem endsInFault_of_parseRun {r : Raise} (hs : s.status = .idle) (h : parseRun s.stream = .error r) :
    EndsInFault (commandStart s) r := by
  rw [commandStart, if_pos hs]
  exact raisesAlike s.stream _ _ r ⟨rfl, rfl, rfl⟩ (Nat.zero_le _) (by simp; omega) h

end Sys2Proof.Machine
end

section
/-! PROOF. The evaluation phase computes the functional view's value: each packet takes two steps of the engine, and the fold of
a frame's children is the fold of R102 (R130 to R133, R140, R143). -/
namespace Sys2Proof.Machine

open Sys2Proof

variable {s : State}

/-! The pre-order list (R35). -/

mutual
theorem length_flat (t : Packet) : (flat t).length = packetCount t := by
  cases t with
  | lit v p z => rfl
  | op o c ts p z => rw [flat, packetCount, List.length_cons, length_flatAll ts, Nat.add_comm]
theorem length_flatAll (ts : List Packet) : (flatAll ts).length = packetCountAll ts := by
  cases ts with
  | nil => rfl
  | cons t ts => rw [flatAll, packetCountAll, List.length_append, length_flat t, length_flatAll ts]
end

/-! The fold (R102, R133). -/

/-- R102: an overflow before the fold is in the outcome of the fold. -/
theorem foldFrom_or (o : Op) (a : Int) (b c : Bool) (xs : List (Int × Bool)) :
    foldFrom o (a, b || c) xs = ((foldFrom o (a, c) xs).1, b || (foldFrom o (a, c) xs).2) := by
  induction xs generalizing a c with
  | nil => rfl
  | cons x xs ih => simp only [foldFrom, Bool.or_assoc, ih]

/-- R102, R133: a frame's accumulator and OVF after one more child, over exact integers. -/
def foldInto (f : EFrame) (ovf : Bool) (x : Int × Bool) : Int × Bool :=
  if f.seeded then (opValue f.op f.acc.toInt x.1, ovf || x.2 || opOverflow f.op f.acc.toInt x.1) else (x.1, ovf || x.2)

/-- R133: the engine's accumulator and OVF after a child's value are those. -/
theorem foldInto_eq (f : EFrame) (ovf : Bool) (w : Word) (b : Bool) : foldInto f ovf (w.toInt, b) =
    ((foldAcc (opReduction f.op) f w).toInt, foldOvf (opReduction f.op) f w (ovf || b)) := by
  unfold foldInto foldAcc foldOvf
  split
  · rw [toInt_opReduction_value, opReduction_overflow]
  · rfl

/-! The packet (R102). -/

/-- The engine is at the FETCH step of the packet whose entries are next in NODE. -/
structure AtFetch (ns : List Node) (s : State) : Prop where
  status : s.status = .eval
  esub : s.esub = .fetch
  next : ns <+: s.node.drop s.eptr

/-- The packets of the next `n` entries are evaluated: the value `w` is in VAL. -/
def evaluated (s : State) (n : Nat) (w : Word) (ovf : Bool) : State :=
  { s with val := w, eptr := s.eptr + n, ovf := ovf, esub := .fold }

theorem AtFetch.getElem?_eptr {n : Node} {ns : List Node} (h : AtFetch (n :: ns) s) : s.node[s.eptr]? = some n := by
  obtain ⟨rest, hrest⟩ := h.next
  have := congrArg List.head? hrest
  simpa using this.symm

theorem prefix_drop_add {ns ms l : List Node} {e : Nat} (h : ns ++ ms <+: l.drop e) : ms <+: l.drop (e + ns.length) := by
  obtain ⟨rest, hrest⟩ := h
  rw [← List.drop_drop, ← hrest, List.append_assoc, List.drop_left]
  exact List.prefix_append ms rest

/-! A child and its FOLD step (R133). -/

/-- R133: the top frame once `w`, a child's value that is not its last, is folded in. -/
def foldedFrame (f : EFrame) (w : Word) : EFrame :=
  { f with acc := foldAcc (opReduction f.op) f w, rem := f.rem - 1, seeded := true }

/-- R133: the value of a child of `n` entries is folded in, and the next child is fetched. -/
def foldedChild (s : State) (f : EFrame) (rest : List EFrame) (n : Nat) (w : Word) (ovf : Bool) : State :=
  { evaluated s n w (foldOvf (opReduction f.op) f w ovf) with estk := foldedFrame f w :: rest, esub := .fetch }

theorem engineMove_foldedChild {ns ms : List Node} {f : EFrame} {rest : List EFrame} (hs : AtFetch (ns ++ ms) s)
    (hf : s.estk = f :: rest) (hr : 2 ≤ f.rem) (w : Word) (ovf : Bool) :
    EngineMove (evaluated s ns.length w ovf) (foldedChild s f rest ns.length w ovf) ∧
      AtFetch ms (foldedChild s f rest ns.length w ovf) :=
  ⟨.foldMore hs.status rfl hf (by omega), hs.status, rfl, prefix_drop_add hs.next⟩

theorem engineMove_foldedLast {n : Nat} {f : EFrame} {rest : List EFrame} (hs : s.status = .eval)
    (hf : s.estk = f :: rest) (hr : f.rem = 1) (w : Word) (ovf : Bool) :
    EngineMove (evaluated s n w ovf) { evaluated s n (foldAcc (opReduction f.op) f w)
      (foldOvf (opReduction f.op) f w ovf) with estk := rest } :=
  .foldLast hs rfl hf (by omega)

/-- R102, R133: the fold of the functional view goes on from the frame as the engine leaves it. -/
theorem foldFrom_foldedFrame {f : EFrame} {w : Word} {x : Int × Bool} (hw : w.toInt = x.1) (ovf : Bool) (y : Int × Bool)
    (ys : List (Int × Bool)) : foldFrom f.op (foldInto f ovf x) (y :: ys) =
      foldFrom f.op (foldInto (foldedFrame f w) (foldOvf (opReduction f.op) f w (ovf || x.2)) y) ys := by
  obtain ⟨v, b⟩ := x
  subst hw
  rw [foldInto_eq]
  rfl

/-! The packet (R102). -/

/-- R34: what the steps use of the invariants of an operator. -/
theorem packetWf_op {o : Op} {c p z : Nat} {ts : List Packet} (h : packetWf (.op o c ts p z) = true) :
    ts.length = c ∧ c < 2 ^ 4 ∧ packetsWf (p + 7) ts = true := by
  simp only [packetWf, Bool.and_eq_true, decide_eq_true_eq] at h
  obtain ⟨⟨⟨hlen, hc⟩, -⟩, hwfs⟩ := h
  exact ⟨hlen, by omega, hwfs⟩

theorem packetsWf_cons {p : Nat} {t : Packet} {ts : List Packet} (h : packetsWf p (t :: ts) = true) :
    packetWf t = true ∧ packetsWf (p + t.size) ts = true := by
  simp only [packetsWf, Bool.and_eq_true] at h
  exact ⟨h.1.2, h.2⟩

theorem toInt_ofNat_of_le_intMax {v : Nat} (h : (v : Int) ≤ intMax) : (BitVec.ofNat 32 v).toInt = v := by
  rw [intMax] at h
  rw [BitVec.toInt_ofNat', Int.bmod_def]
  split <;> omega

/-- R131: an operator with children is fetched. -/
theorem engineMove_descendEval {o : Op} {c p z : Nat} {ts : List Packet} (hwf : packetWf (.op o c ts p z) = true)
    (hc : c ≠ 0) (hs : AtFetch (flat (.op o c ts p z)) s) :
    let u := { s with estk := ⟨o, c, 0, false⟩ :: s.estk, eptr := s.eptr + 1, esub := .fetch }
    EngineMove s u ∧ AtFetch (flatAll ts) u := by
  obtain ⟨-, hlt, -⟩ := packetWf_op hwf
  have hmove := EngineMove.fetchOperator hs.status hs.esub hs.getElem?_eptr rfl (mt (ofNat_four_eq_zero_iff hlt).mp hc)
  rw [toNat_ofNat_four hlt] at hmove
  exact ⟨hmove, hs.status, rfl, prefix_drop_add (ns := [_]) hs.next⟩

mutual
/-- R102, R143: a packet's value is in VAL, and its overflow in OVF, two steps a packet later but for the FOLD step that takes
it. -/
theorem engineRun_evaluate {t : Packet} {s : State} {x : Int × Bool} (hwf : packetWf t = true) (hs : AtFetch (flat t) s)
    (h : evaluate t = .ok x) : ∃ k w, k + 1 = 2 * packetCount t ∧ w.toInt = x.1 ∧
      EngineRun k s (evaluated s (flat t).length w (s.ovf || x.2)) := by
  cases t with
  | lit v p z =>
    simp only [packetWf, Bool.and_eq_true, decide_eq_true_eq] at hwf
    obtain ⟨⟨hv, -⟩, -⟩ := hwf
    cases h
    refine ⟨1, _, rfl, toInt_ofNat_of_le_intMax hv, ?_⟩
    rw [Bool.or_false]
    exact .single (.fetchLiteral hs.status hs.esub hs.getElem?_eptr rfl)
  | op o c ts p z =>
    obtain ⟨hlen, -, hwfs⟩ := packetWf_op hwf
    obtain ⟨y, ys, hys, rfl⟩ := evaluate_op_ok h
    have hc : c ≠ 0 := by
      rintro rfl
      cases h
    obtain ⟨hmove, hnext⟩ := engineMove_descendEval hwf hc hs
    obtain ⟨w, ovf, hw, hrun⟩ := engineRun_evaluateAll hwfs hnext rfl hlen.symm hys
    obtain ⟨hval, hovf⟩ := Prod.mk.inj (hw.trans (foldFrom_or o y.1 s.ovf y.2 ys))
    refine ⟨2 * packetCountAll ts + 1, w, by rw [packetCount]; omega, hval, ?_⟩
    have hend := EngineRun.head hmove hrun
    simpa [evaluated, flat, hovf, Nat.add_assoc, Nat.add_comm 1] using hend
/-- The children still due of the frame on top, each with its FOLD step. -/
theorem engineRun_evaluateAll {ts : List Packet} {s : State} {p : Nat} {f : EFrame} {rest : List EFrame} {y : Int × Bool}
    {ys : List (Int × Bool)} (hwf : packetsWf p ts = true) (hs : AtFetch (flatAll ts) s) (hf : s.estk = f :: rest)
    (hrem : f.rem = ts.length) (h : evaluateAll ts = .ok (y :: ys)) :
    ∃ w ovf, (BitVec.toInt w, ovf) = foldFrom f.op (foldInto f s.ovf y) ys ∧
      EngineRun (2 * packetCountAll ts) s { evaluated s (flatAll ts).length w ovf with estk := rest } := by
  cases ts with
  | nil => cases h
  | cons t ts =>
    obtain ⟨hwft, hwfs⟩ := packetsWf_cons hwf
    obtain ⟨y, ys, hy, hys, heq⟩ := evaluateAll_cons_ok h
    cases heq
    obtain ⟨k, w, hk, hw, hrun⟩ := engineRun_evaluate hwft
      ⟨hs.status, hs.esub, (List.prefix_append _ _).trans hs.next⟩ hy
    cases ts with
    | nil =>
      cases hys
      refine ⟨_, _, (foldInto_eq f s.ovf w y.2).symm.trans (by rw [hw]; rfl), ?_⟩
      have hend := hrun.trans (.single (engineMove_foldedLast hs.status hf hrem w (s.ovf || y.2)))
      rw [hk] at hend
      simpa [packetCountAll, flatAll] using hend
    | cons t' ts =>
      obtain ⟨y', ys, -, -, rfl⟩ := evaluateAll_cons_ok hys
      obtain ⟨hmove, hnext⟩ := engineMove_foldedChild hs hf (by simp [hrem]) w (s.ovf || y.2)
      obtain ⟨w', ovf, hw', hrest⟩ := engineRun_evaluateAll (s := foldedChild s f rest (flat t).length w (s.ovf || y.2))
        hwfs hnext rfl (by simp [foldedFrame, hrem]) hys
      refine ⟨w', ovf, hw'.trans (foldFrom_foldedFrame (f := f) hw s.ovf y' ys).symm, ?_⟩
      have hend := (hrun.trans (.single hmove)).trans hrest
      rw [hk, ← Nat.mul_add] at hend
      simpa [foldedChild, evaluated, flatAll, packetCountAll, Nat.add_assoc] using hend
end

mutual
/-- R108: an operator without children is the fault of the run. -/
theorem endsInFault_of_evaluate {t : Packet} {s : State} {r : Raise} (hwf : packetWf t = true) (hs : AtFetch (flat t) s)
    (h : evaluate t = .error r) : EndsInFault s r := by
  cases t with
  | lit v p z => cases h
  | op o c ts p z =>
    obtain ⟨hlen, -, hwfs⟩ := packetWf_op hwf
    rw [evaluate] at h
    split at h
    next hc =>
      cases h
      subst hc
      exact (EngineMove.fetchEmpty hs.status hs.esub hs.getElem?_eptr rfl rfl).endsInFault
    next hc =>
      obtain ⟨hmove, hnext⟩ := engineMove_descendEval hwf hc hs
      split at h
      next hr =>
        cases h
        exact hmove.endsWith (endsInFault_of_evaluateAll hwfs hnext rfl hlen.symm hr)
      next xs hxs =>
        cases ts with
        | nil => exact absurd hlen.symm hc
        | cons t ts =>
          obtain ⟨y, ys, -, -, rfl⟩ := evaluateAll_cons_ok hxs
          cases h
/-- The children before the one that raises are folded into the frame on top. -/
theorem endsInFault_of_evaluateAll {ts : List Packet} {s : State} {p : Nat} {f : EFrame} {rest : List EFrame} {r : Raise}
    (hwf : packetsWf p ts = true) (hs : AtFetch (flatAll ts) s) (hf : s.estk = f :: rest) (hrem : f.rem = ts.length)
    (h : evaluateAll ts = .error r) : EndsInFault s r := by
  cases ts with
  | nil => cases h
  | cons t ts =>
    obtain ⟨hwft, hwfs⟩ := packetsWf_cons hwf
    have hfirst : AtFetch (flat t) s := ⟨hs.status, hs.esub, (List.prefix_append _ _).trans hs.next⟩
    rw [evaluateAll] at h
    split at h
    next hr =>
      cases h
      exact endsInFault_of_evaluate hwft hfirst hr
    next y hy =>
      split at h <;> cases h
      next hr =>
        cases ts with
        | nil => cases hr
        | cons t' ts =>
          obtain ⟨k, w, -, -, hrun⟩ := engineRun_evaluate hwft hfirst hy
          obtain ⟨hmove, hnext⟩ := engineMove_foldedChild hs hf (by simp [hrem]) w (s.ovf || y.2)
          exact hrun.endsWith (hmove.endsWith
            (endsInFault_of_evaluateAll hwfs hnext rfl (by simp [foldedFrame, hrem]) hr))
end

/-! The run (R140, R143). -/

/-- R143: where the functional view gives a value, the last step but one of the run is in EVAL, and the last ends the run with
that value. -/
theorem exists_engineRun_finish {tree : Packet} {v : Int} {ovf : Bool} (hs : s.status = .idle)
    (hp : parseRun s.stream = .ok tree) (he : evaluate tree = .ok (v, ovf)) :
    ∃ k u, k + 1 = 4 * packetCount tree + groupCount tree ∧ EngineRun k (commandStart s) u ∧ u.status = .eval ∧
      EngineMove u (finishRun u) ∧ (finishRun u).verdict = some (.done v tree.size ovf) := by
  obtain ⟨j, u, t, hj, hparse, -, hmove, hstatus, hnode, hconsumed, heptr, hesub, hestk, hovf⟩ :=
    exists_engineRun_parse hs hp
  have hfetch : AtFetch (flat tree) t := ⟨hstatus, hesub, by simp [hnode, heptr]⟩
  obtain ⟨k, w, hk, hw, heval⟩ := engineRun_evaluate (parsePacket_extent hp).wf hfetch he
  refine ⟨j + 1 + k, _, by omega, (hparse.trans (.single hmove)).trans heval, hstatus,
    .finish hstatus rfl hestk, ?_⟩
  simp [State.verdict, evaluated, hw, hconsumed, hovf]

theorem endsInFault_of_evaluate_parseRun {tree : Packet} {r : Raise} (hs : s.status = .idle)
    (hp : parseRun s.stream = .ok tree) (he : evaluate tree = .error r) : EndsInFault (commandStart s) r := by
  obtain ⟨j, u, t, -, hparse, -, hmove, hstatus, hnode, -, heptr, hesub, -⟩ := exists_engineRun_parse hs hp
  exact hparse.endsWith (hmove.endsWith (endsInFault_of_evaluate (parsePacket_extent hp).wf
    ⟨hstatus, hesub, by simp [hnode, heptr]⟩ he))

/-- R140: the run begun by START from IDLE ends with the outcome of the functional view. -/
theorem endsWith_verdictOf (hs : s.status = .idle) : EndsWith (commandStart s) (verdictOf s.stream) := by
  unfold verdictOf
  split
  next r hr => exact endsInFault_of_parseRun hs hr
  next tree hp =>
    split
    next r hr => exact endsInFault_of_evaluate_parseRun hs hp hr
    next v ovf he =>
      obtain ⟨k, u, -, hrun, -, hmove, hverdict⟩ := exists_engineRun_finish hs hp he
      exact hrun.endsWith ⟨1, _, .single hmove, hverdict⟩

/-! Before its last step a run is in PARSE or EVAL (R143). -/

/-- R122: the engine has a step. -/
def Running (s : State) : Prop := s.status = .parse ∨ s.status = .eval

theorem EngineMove.unique {t u : State} (h : EngineMove s t) (h' : EngineMove s u) : t = u :=
  Host.Outcome.next.inj (h.engineStep_eq.symm.trans h'.engineStep_eq)

theorem EngineMove.running {t : State} (h : EngineMove s t) (ht : Running t) : Running s := by
  by_contra hs
  obtain ⟨hp, he⟩ := not_or.mp hs
  cases h.unique (.rest hp he)
  exact hs ht

/-- A run passes through no state in which the engine has stopped before one in which it has not. -/
theorem EngineRun.running_of_le {j k : Nat} {t u : State} (h : EngineRun j s u) (h' : EngineRun k s t) (hle : j ≤ k)
    (ht : Running t) : Running u := by
  induction h generalizing k with
  | refl =>
    induction h' with
    | refl => exact ht
    | head hm _ ih => exact hm.running (ih ht (Nat.zero_le _))
  | head hm _ ih =>
    cases h' with
    | refl => exact absurd hle (Nat.not_succ_le_zero _)
    | head hm' hr' =>
      cases hm.unique hm'
      exact ih hr' (Nat.le_of_succ_le_succ hle)

theorem agenda_commandStart (ha : s.agenda = []) : (commandStart s).agenda = [] := by
  unfold commandStart
  split <;> exact ha

end Sys2Proof.Machine

open Sys2Proof.Machine in
/-- Settles O56: the parse raises as the engine does or builds the tree's pre-order list, and the evaluation of that list raises
or ends with the tree's value. -/
theorem runAgreesWithTheFunctionalView : Obligations.RunAgreesWithTheFunctionalView := by
  intro s hs ha
  obtain ⟨k, t, hrun, hverdict⟩ := endsWith_verdictOf hs
  exact ⟨k, t, (run_eq_next_iff (agenda_commandStart ha)).mpr hrun, hverdict⟩

open Sys2Proof.Machine in
/-- Settles O58: two steps a packet and one a group to parse, two a packet to evaluate, the last of them the end of the run. -/
theorem stepsOfAFaultFreeRun : Obligations.StepsOfAFaultFreeRun := by
  intro s tree v ovf hs ha hp he
  have hagenda := agenda_commandStart ha
  obtain ⟨k, u, hk, hrun, hu, hmove, -⟩ := exists_engineRun_finish hs hp he
  rw [← hk]
  refine ⟨⟨finishRun u, (run_eq_next_iff hagenda).mpr (hrun.trans (.single hmove)), rfl⟩, fun j t hj hrun' => ?_⟩
  exact ((run_eq_next_iff hagenda).mp hrun').running_of_le hrun (Nat.le_of_lt_succ hj) (.inr hu)
end

section
/-! PROOF. What the invariant gives a step: it is never stuck, the stores have room for it, and a FETCH step has an entry to read
(R140 to R143). -/
namespace Sys2Proof.Machine

open Sys2Proof

variable {s : State}

/-! NODE and the stacks (R140 to R142). -/

/-- R35: where packets are due, the list has an entry. -/
theorem ne_nil_of_dueAfter_succ {d : Nat} {ns : List Node} (h : dueAfter (d + 1) ns = some 0) : ns ≠ [] := by
  rintro rfl
  cases h

/-- R35: where no packet is due, the list is at its end. -/
theorem eq_nil_of_dueAfter_zero {e : Nat} {ns : List Node} (h : dueAfter 0 ns = some e) : ns = [] := by
  cases ns with
  | nil => rfl
  | cons n ns => cases h

theorem EvalInv.eptr_lt (h : EvalInv s) (he : s.esub = .fetch) : s.eptr < s.node.length := by
  have hdue := h.due
  rw [if_pos he] at hdue
  exact not_le.mp fun hle => ne_nil_of_dueAfter_succ hdue (List.drop_eq_nil_iff.mpr hle)

theorem EvalInv.eptr_eq (h : EvalInv s) (he : s.esub = .fold) (hf : s.estk = []) : s.eptr = s.node.length := by
  have hdue := h.due
  rw [if_neg (by simp [he]), hf] at hdue
  exact h.eptr_le.antisymm (List.drop_eq_nil_iff.mp (eq_nil_of_dueAfter_zero hdue))

/-- R142: the literal being read has read 3 bits of its own, every other entry 7. -/
theorem ParseInv.stores_le (h : ParseInv s) : 7 * s.node.length ≤ s.len + 4 ∧ 7 * s.pstk.length ≤ s.len := by
  have hpos := h.pos_le
  have hdepth := h.depth
  cases hp : s.psub with
  | hdr =>
    have hhdr := h.hdr hp
    omega
  | grp =>
    have hgrp := h.grp hp
    omega
  | ret =>
    have hret := h.ret hp
    omega

theorem EvalInv.stores_le (h : EvalInv s) : 7 * s.node.length ≤ s.len ∧ 7 * s.estk.length ≤ s.len := by
  have hpackets := h.packets
  have hdepth := h.depth.trans h.eptr_le
  omega

/-- R141, R142: in seven times the number of entries, as POS counts them. -/
theorem Inv.stores_le (h : Inv s) (hs : s.status = .parse ∨ s.status = .eval) :
    7 * s.node.length ≤ s.len + 4 ∧ 7 * s.pstk.length ≤ s.len ∧ 7 * s.estk.length ≤ s.len := by
  rcases hs with hs | hs
  · have hestk : s.estk = [] := (h.reg.cleared (.inr hs)).estk
    obtain ⟨hnode, hpstk⟩ := (h.parse hs).stores_le
    exact ⟨hnode, hpstk, by simp [hestk]⟩
  · have hpstk : s.pstk = [] := (h.reg.evaluating hs).pstk
    obtain ⟨hnode, hestk⟩ := (h.eval hs).stores_le
    exact ⟨by omega, by simp [hpstk], hestk⟩

/-! Progress (R143). -/

/-- R123, R124: every header, whole or cut, has its move. -/
theorem exists_engineMove_of_hdr (hs : s.status = .parse) (hp : s.psub = .hdr) : ∃ t, EngineMove s t := by
  rcases hd : decode (s.window 7) with e | ⟨i, rest⟩
  · cases e with
    | typeDoesNotFit => exact ⟨_, .typeCut hs hp hd⟩
    | countDoesNotFit => exact ⟨_, .countCut hs hp hd⟩
  · rcases exec_forms i with ⟨o, c, rfl⟩ | rfl | ⟨hi, -⟩
    · by_cases hc : c = 0
      · subst hc
        exact ⟨_, .leaf hs hp hd⟩
      · exact ⟨_, .descend hs hp hd hc⟩
    · exact ⟨_, .literal hs hp hd⟩
    · exact ⟨_, .illegal hs hp hd hi⟩

theorem exists_engineMove_of_grp {n : Node} (hs : s.status = .parse) (hp : s.psub = .grp)
    (hn : s.node[s.cur]? = some n) : ∃ t, EngineMove s t := by
  cases hg : s.group with
  | none => exact ⟨_, .groupCut hs hp hg⟩
  | some g =>
    cases hm : g.more with
    | true => exact ⟨_, .groupMore hs hp hg hm⟩
    | false =>
      cases ho : literalOverflows (readGroup g s).lov (readGroup g s).lval with
      | true => exact ⟨_, .groupOverflow hs hp hg hm hn ho⟩
      | false => exact ⟨_, .groupFinal hs hp hg hm hn ho⟩

theorem exists_engineMove_of_ret {n : Node} (hs : s.status = .parse) (hp : s.psub = .ret)
    (hn : s.node[s.cur]? = some n) : ∃ t, EngineMove s t := by
  cases hf : s.pstk with
  | nil => exact ⟨_, .parseEnd hs hp hn hf⟩
  | cons f rest =>
    by_cases hr : f.rem - 1 = 0
    · exact ⟨_, .lastChild hs hp hn hf hr⟩
    · exact ⟨_, .nextChild hs hp hn hf hr⟩

theorem exists_engineMove_of_fetch {n : Node} (hs : s.status = .eval) (he : s.esub = .fetch)
    (hn : s.node[s.eptr]? = some n) : ∃ t, EngineMove s t := by
  cases ht : n.tid with
  | lit => exact ⟨_, .fetchLiteral hs he hn ht⟩
  | op o =>
    by_cases hc : n.cnt = 0
    · exact ⟨_, .fetchEmpty hs he hn ht hc⟩
    · exact ⟨_, .fetchOperator hs he hn ht hc⟩

theorem exists_engineMove_of_fold (hs : s.status = .eval) (he : s.esub = .fold) : ∃ t, EngineMove s t := by
  cases hf : s.estk with
  | nil => exact ⟨_, .finish hs he hf⟩
  | cons f rest =>
    by_cases hr : f.rem - 1 = 0
    · exact ⟨_, .foldLast hs he hf hr⟩
    · exact ⟨_, .foldMore hs he hf hr⟩

/-- R143: the invariant gives the entry that a GRP, RET or FETCH step reads. -/
theorem Inv.exists_engineMove (h : Inv s) : ∃ t, EngineMove s t := by
  by_cases hs : s.status = .parse
  · have hpi := h.parse hs
    cases hp : s.psub with
    | hdr => exact exists_engineMove_of_hdr hs hp
    | grp =>
      obtain ⟨hcur, -⟩ := hpi.grp hp
      exact exists_engineMove_of_grp hs hp (List.getElem?_eq_getElem (by omega))
    | ret =>
      obtain ⟨hcur, -⟩ := hpi.ret hp
      exact exists_engineMove_of_ret hs hp (List.getElem?_eq_getElem hcur)
  · by_cases he : s.status = .eval
    · cases hsub : s.esub with
      | fetch => exact exists_engineMove_of_fetch he hsub (List.getElem?_eq_getElem ((h.eval he).eptr_lt hsub))
      | fold => exact exists_engineMove_of_fold he hsub
    · exact ⟨s, .rest hs he⟩

/-- R25, R42: a host access is answered unless it asks, in IDLE, for a cell that does not exist. -/
theorem exists_perform_eq_next {a : HostAccess} (h : s.status = .idle → CellExists a) : ∃ t, perform a s = .next t := by
  cases a with
  | writeReg r v => exact ⟨_, rfl⟩
  | reset => exact ⟨_, rfl⟩
  | engine => exact ⟨_, rfl⟩
  | writeBit p b =>
    by_cases hs : s.status = .idle
    · have hp : p < Config.maxBits := h hs
      exact ⟨{ s with bits := writeCell s.bits p b }, by simp [perform, writeBit, hs, hp]⟩
    · exact ⟨s, by simp [perform, writeBit, hs]⟩
  | writeByte k v =>
    by_cases hs : s.status = .idle
    · have hk : 8 * k < Config.maxBits := h hs
      exact ⟨{ s with bits := writeByteCells k v s.bits }, by simp [perform, writeByte, hs, hk]⟩
    · exact ⟨s, by simp [perform, writeByte, hs]⟩

end Sys2Proof.Machine

open Sys2Proof.Machine in
/-- Settles O14: a packet is due at every FETCH step, and none at the last FOLD step. -/
theorem fetchFindsANode : Obligations.FetchFindsANode := fun _ hi hs => ⟨(hi.eval hs).eptr_lt, (hi.eval hs).eptr_eq⟩

open Sys2Proof.Machine in
/-- Settles O13: each entry but a literal being read has advanced POS, which is at most LEN, by 7 bits of its own. -/
theorem storesNeverOverflow : Obligations.StoresNeverOverflow := by
  intro s hi hs
  obtain ⟨hnode, hpstk, hestk⟩ := hi.stores_le hs
  simp only [State.ncnt, State.psp, State.esp, Sys2Proof.Config.nmax]
  omega

open Sys2Proof.Machine in
/-- Settles O12: the engine has a move from every state that meets the invariant, and a host access is answered. -/
theorem invariantStatesStep : Obligations.InvariantStatesStep := by
  intro s hi hcell
  unfold step
  split
  next ha =>
    obtain ⟨t, hm⟩ := hi.exists_engineMove
    exact ⟨t, hm.engineStep_eq⟩
  next later ha =>
    obtain ⟨t, hm⟩ := (hi.with_agenda later).exists_engineMove
    exact ⟨t, hm.engineStep_eq⟩
  next a later _ ha => exact exists_perform_eq_next (hcell a later ha)
end

section
/-! PROOF. The steps of the sequencer one by one: which packet's step is taken (R122), the whole HDR step (R123, R124), RET
(R127), FETCH (R130, R131), the end of the run (R132), and the two commands (R120, R121). -/
namespace Sys2Proof.Machine

open Sys2Proof

variable {s : State}

/-- R11: with no host access to come the step is the engine's. -/
theorem step_eq_engineStep (ha : s.agenda = []) : step s = engineStep s := by
  rw [step, ha]

/-! The packet at hand (R122). -/

theorem engineStep_of_ret_node {n : Node} (hs : s.status = .parse) (hp : s.psub = .ret) (hn : s.nodeAt s.cur = some n) :
    engineStep s = exec n.instr s := by
  simp only [engineStep, pending, hs, hp, storedPacket, hn]

theorem engineStep_of_fetch_node {n : Node} (hs : s.status = .eval) (he : s.esub = .fetch)
    (hn : s.nodeAt s.eptr = some n) : engineStep s = exec n.instr s := by
  simp only [engineStep, pending, hs, he, storedPacket, hn]

theorem exec_opInstr_eq_foldStep (o : Op) (c : BitVec 4) (hs : s.status = .eval) (he : s.esub = .fold) :
    exec (opInstr o c) s = foldStep (opReduction o) s := by
  simp only [exec_opInstr, operatorStep, hs, he]

/-- R127: the RET step of every legal packet type. -/
theorem exec_eq_returnStep {i : Instr} (hi : i.legal = true) (hs : s.status = .parse) (hp : s.psub = .ret) :
    exec i s = returnStep s := by
  rcases exec_forms i with ⟨o, c, rfl⟩ | rfl | ⟨hillegal, -⟩
  · simp only [exec_opInstr, operatorStep, hs, hp]
  · simp only [exec, execLit, literalStep, hs, hp]
  · simp [hi] at hillegal

theorem exec_lit_eq_fetchLiteral (hs : s.status = .eval) (he : s.esub = .fetch) : exec .lit s = fetchLiteral s := by
  simp only [exec, execLit, literalStep, hs, he]

theorem exec_opInstr_eq_fetchOperator (o : Op) (c : BitVec 4) (hs : s.status = .eval) (he : s.esub = .fetch) :
    exec (opInstr o c) s = fetchOperator o c s := by
  simp only [exec_opInstr, operatorStep, hs, he]

/-! The header at POS in terms of the fields of BITS (R123, R124). -/

theorem classify_stream (h3 : 3 ≤ s.len - s.pos) : classify s.stream s.pos = s.field s.pos 3 :=
  (field_eq_bitsAt_stream (by omega)).symm

theorem decode_window_typeCut (h : s.len - s.pos < 3) : decode (s.window 7) = .error .typeDoesNotFit := by
  rw [window_eq_take_drop_stream]
  exact decode_typeCut (by rwa [length_stream])

theorem decode_window_illegal (h3 : 3 ≤ s.len - s.pos) (h : 5 ≤ s.field s.pos 3) :
    ∃ i rest, decode (s.window 7) = .ok (i, rest) ∧ i.legal = false := by
  rw [window_eq_take_drop_stream]
  exact decode_of_five_le_classify (by rwa [length_stream]) (by rwa [classify_stream h3])

theorem decode_window_lit (h3 : 3 ≤ s.len - s.pos) (h : s.field s.pos 3 = 4) :
    ∃ rest, decode (s.window 7) = .ok (.lit, rest) := by
  rw [window_eq_take_drop_stream]
  exact decode_of_classify_eq_four (by rwa [length_stream]) (by rwa [classify_stream h3])

theorem decode_window_countCut (h3 : 3 ≤ s.len - s.pos) (h7 : s.len - s.pos < 7) (h : s.field s.pos 3 ≤ 3) :
    decode (s.window 7) = .error .countDoesNotFit := by
  rw [window_eq_take_drop_stream]
  exact decode_countCut (by rwa [length_stream]) (by rwa [length_stream]) (by rw [classify_stream h3]; omega)

theorem decode_window_op (h7 : 7 ≤ s.len - s.pos) (h : s.field s.pos 3 ≤ 3) : ∃ rest, decode (s.window 7) =
    .ok (opInstr (Op.ofType (s.field s.pos 3)) (BitVec.ofNat 4 (s.field (s.pos + 3) 4)), rest) := by
  have htype := classify_stream (s := s) (by omega)
  rw [window_eq_take_drop_stream, ← htype, field_eq_bitsAt_stream (by omega)]
  exact decode_of_classify_lt_four (by rwa [length_stream]) (by omega)

/-- R124: the step of an operator header that lies below LEN. -/
theorem engineStep_operator (hs : s.status = .parse) (hp : s.psub = .hdr) (h7 : 7 ≤ s.len - s.pos)
    (h : s.field s.pos 3 ≤ 3) : engineStep s =
      .next (headerOperator (Op.ofType (s.field s.pos 3)) (BitVec.ofNat 4 (s.field (s.pos + 3) 4)) s) := by
  obtain ⟨rest, hd⟩ := decode_window_op h7 h
  rw [engineStep_header hs hp hd, exec_opInstr_of_hdr _ _ hs hp]

theorem field_lt (s : State) (p n : Nat) : s.field p n < 2 ^ n := by
  simpa [State.field] using bitsValue_lt (s.slice p n)

/-! CLEAR (R121). -/

/-- R31, R121: in IDLE the registers that CLEAR writes are 0 already. -/
theorem sameView_commandClear (hi : Inv s) (hs : s.status = .idle) : SameView (commandClear s) s := by
  have hc := hi.reg.cleared (.inl hs)
  exact ⟨hs.symm, hc.err.symm, hc.epos.symm, hc.result.symm, hc.consumed.symm, hc.ovf.symm, rfl, fun _ => rfl⟩

end Sys2Proof.Machine

open Sys2Proof.Machine in
/-- Settles O20: the five headers in the order of the checks, an operator's with or without children. -/
theorem headerStep : Obligations.HeaderStep := by
  intro s ha hs hp
  refine ⟨fun h => ?_, fun h3 h => ?_, fun h3 h => ?_, fun h3 h7 h => ?_, fun h7 h => ?_⟩
  · exact ⟨_, (step_eq_next_iff ha).mpr (.typeCut hs hp (decode_window_typeCut h)), faultsWith_raiseFault _ _ _⟩
  · obtain ⟨i, rest, hd, hi⟩ := decode_window_illegal h3 h
    exact ⟨_, (step_eq_next_iff ha).mpr (.illegal hs hp hd hi), faultsWith_raiseFault _ _ _⟩
  · obtain ⟨rest, hd⟩ := decode_window_lit h3 h
    exact (step_eq_next_iff ha).mpr (.literal hs hp hd)
  · exact ⟨_, (step_eq_next_iff ha).mpr (.countCut hs hp (decode_window_countCut h3 h7 h)), faultsWith_raiseFault _ _ _⟩
  · intro c n
    have hlt := field_lt s (s.pos + 3) 4
    rw [step_eq_engineStep ha, engineStep_operator hs hp h7 h]
    obtain ⟨hc, heq⟩ | ⟨hc, heq⟩ := headerOperator_cases (Sys2Proof.Op.ofType (s.field s.pos 3)) c s
    · rw [heq, if_pos ((ofNat_four_eq_zero_iff hlt).mp hc), State.ncnt]
    · rw [heq, if_neg (mt (ofNat_four_eq_zero_iff hlt).mpr hc), toNat_ofNat_four hlt, State.ncnt]

open Sys2Proof.Machine in
/-- Settles O18: the engine's step, taken with an empty agenda or as an entry of it. -/
theorem stepRunsTheHeaderAtPos : Obligations.StepRunsTheHeaderAtPos := by
  intro s i rest hs hp hd
  refine ⟨fun ha => (step_eq_engineStep ha).trans (engineStep_header hs hp hd), fun later ha => ?_⟩
  rw [step, ha]
  exact engineStep_header (s := { s with agenda := later }) hs hp hd

open Sys2Proof.Machine in
/-- Settles O19, sub-state by sub-state. -/
theorem stepRunsTheStoredPacket : Obligations.StepRunsTheStoredPacket := by
  intro s ha
  rw [step_eq_engineStep ha]
  refine ⟨fun hs hp => ?_, fun n => engineStep_of_ret_node, fun n => engineStep_of_fetch_node, fun f later c hs he hf => ?_⟩
  · rw [engineStep_grp hs hp, exec_lit_of_grp hs hp]
  · rw [engineStep_fold hs he hf, exec_opInstr_eq_foldStep _ c hs he]

open Sys2Proof.Machine in
/-- Settles O21: neither phase has begun or both are over, and the engine rests. -/
theorem noEngineStepOutsideARun : Obligations.NoEngineStepOutsideARun := by
  intro s ha hs
  rw [step_eq_engineStep ha]
  rcases hs with hs | hs | hs <;> exact engineStep_rest (by simp [hs]) (by simp [hs])

open Sys2Proof.Machine in
/-- Settles O22: the step is `finishRun`, whose two writes are those of the rule. -/
theorem endOfRun : Obligations.EndOfRun := fun _ ha hs he hf =>
  (step_eq_engineStep ha).trans (engineStep_finish hs he hf)

open Sys2Proof.Machine in
/-- Settles O35: the step of every legal type is `returnStep`, whose branches are the three clauses. -/
theorem returnCompletesThePacket : Obligations.ReturnCompletesThePacket := by
  intro i s n hi hs hp hn
  rw [exec_eq_returnStep hi hs hp]
  refine ⟨fun hf => ?_, fun f rest hf hr => ?_, fun f rest hf hr => ?_⟩
  · simp only [returnStep, hn, hf, setNode]
  · simp [returnStep, hn, hf, hr, setNode]
  · have hmore : ¬ f.rem - 1 = 0 := by omega
    simp only [returnStep, hn, hf, if_neg hmore, setNode]

open Sys2Proof.Machine in
/-- Settles O36: the entry EPTR is in use, and VAL takes its value. -/
theorem fetchLiteral : Obligations.FetchLiteral := by
  intro s n hs he hn
  simp only [exec_lit_eq_fetchLiteral hs he, Sys2Proof.Machine.fetchLiteral, hn]

open Sys2Proof.Machine in
/-- Settles O37: the entry EPTR is in use, and the count decides between the fault and the frame. -/
theorem fetchOperator : Obligations.FetchOperator := by
  intro o c s n hs he hn
  simp only [exec_opInstr_eq_fetchOperator o c hs he, Sys2Proof.Machine.fetchOperator, hn]
  exact ⟨fun hc => ⟨_, by rw [if_pos hc], faultsWith_raiseFault _ _ _⟩, fun hc => if_neg hc⟩

open Sys2Proof.Machine in
/-- Settles O45: START is `commandStart`, which writes in IDLE alone. -/
theorem startCommand : Obligations.StartCommand := fun _ => rfl

open Sys2Proof.Machine in
/-- Settles O46: CLEAR is `commandClear`, and what the host sees in IDLE is at those values already. -/
theorem clearCommand : Obligations.ClearCommand := fun _ => ⟨rfl, sameView_commandClear⟩
end

section
/-! PROOF. The frame of every packet type: which registers a step of each phase may write (R123 to R133, R158). -/
namespace Sys2Proof.Machine

open Sys2Proof

variable {s t : State}

/-- The registers that a packet's step may write, by the phase it is in and the phase it leaves: a constructor for each. -/
inductive PacketWrites (s : State) : State → Prop
  /-- R158, after the writes of R125 where the literal is too large -/
  | fault (k : FailureKind) (p : Nat) (lval : Word) (lov : Bool) (pos : Nat) (psub : ParseSub) :
      PacketWrites s (raiseFault k p { s with lval := lval, lov := lov, pos := pos, psub := psub })
  /-- R123 to R127 -/
  | parse (node : List Node) (cur : Nat) (lval : Word) (lov : Bool) (pos : Nat) (psub : ParseSub) (pstk : List PFrame)
      (hs : s.status = .parse) :
      PacketWrites s { s with
        node := node, cur := cur, lval := lval, lov := lov, pos := pos, psub := psub, pstk := pstk }
  /-- R127, the end of the parse phase -/
  | parseEnd (node : List Node) (consumed eptr : Nat) (estk : List EFrame) (esub : EvalSub) (hs : s.status = .parse) :
      PacketWrites s { s with
        node := node, consumed := consumed, eptr := eptr, estk := estk, esub := esub, status := .eval }
  /-- R130, R131, R133 -/
  | eval (val : Word) (ovf : Bool) (eptr : Nat) (estk : List EFrame) (esub : EvalSub) (hs : s.status = .eval) :
      PacketWrites s { s with val := val, ovf := ovf, eptr := eptr, estk := estk, esub := esub }

theorem packetWrites_raiseFault (k : FailureKind) (p : Nat) (s : State) : PacketWrites s (raiseFault k p s) :=
  .fault k p s.lval s.lov s.pos s.psub

theorem packetWrites_headerOperator (o : Op) (c : BitVec 4) (hs : s.status = .parse) :
    PacketWrites s (headerOperator o c s) := by
  obtain ⟨-, h⟩ | ⟨-, h⟩ := headerOperator_cases o c s <;> rw [h] <;> exact .parse _ _ _ _ _ _ _ hs

theorem packetWrites_of_groupStep (hs : s.status = .parse) (h : groupStep s = .next t) : PacketWrites s t := by
  obtain ⟨-, rfl⟩ | ⟨g, -, ⟨-, rfl⟩ | ⟨-, hfin⟩⟩ := groupStep_cases h
  · exact packetWrites_raiseFault _ _ s
  · exact .parse _ _ _ _ _ _ _ hs
  · obtain ⟨n, -, ⟨-, rfl⟩ | ⟨-, rfl⟩⟩ := finishLiteral_cases hfin
    · exact .fault _ _ _ _ _ _
    · exact .parse _ _ _ _ _ _ _ hs

theorem packetWrites_of_returnStep (hs : s.status = .parse) (h : returnStep s = .next t) : PacketWrites s t := by
  obtain ⟨n, -, ⟨-, rfl⟩ | ⟨f, rest, -, ⟨-, rfl⟩ | ⟨-, rfl⟩⟩⟩ := returnStep_cases h
  · exact .parseEnd _ _ _ _ _ hs
  · exact .parse _ _ _ _ _ _ _ hs
  · exact .parse _ _ _ _ _ _ _ hs

theorem packetWrites_of_fetchLiteral (hs : s.status = .eval) (h : fetchLiteral s = .next t) : PacketWrites s t := by
  obtain ⟨n, -, rfl⟩ := fetchLiteral_cases h
  exact .eval _ _ _ _ _ hs

theorem packetWrites_of_fetchOperator {o : Op} {c : BitVec 4} (hs : s.status = .eval) (h : fetchOperator o c s = .next t) :
    PacketWrites s t := by
  obtain ⟨n, -, ⟨-, rfl⟩ | ⟨-, rfl⟩⟩ := fetchOperator_cases h
  · exact packetWrites_raiseFault _ _ s
  · exact .eval _ _ _ _ _ hs

theorem packetWrites_of_foldStep {r : Reduction} (hs : s.status = .eval) (h : foldStep r s = .next t) :
    PacketWrites s t := by
  obtain ⟨f, rest, -, ⟨-, rfl⟩ | ⟨-, rfl⟩⟩ := foldStep_cases h
  · exact .eval _ _ _ _ _ hs
  · exact .eval _ _ _ _ _ hs

/-- Every step of a packet type is a rule of its sub-state, and writes what that rule writes. -/
theorem packetWrites_of_exec {i : Instr} (h : exec i s = .next t) : PacketWrites s t := by
  rcases exec_forms i with ⟨o, c, rfl⟩ | rfl | ⟨-, hillegal⟩
  · rw [exec_opInstr] at h
    obtain ⟨hs, -, rfl⟩ | ⟨hs, -, h⟩ | ⟨hs, -, h⟩ | ⟨hs, -, h⟩ := operatorStep_cases h
    · exact packetWrites_headerOperator o c hs
    · exact packetWrites_of_returnStep hs h
    · exact packetWrites_of_fetchOperator hs h
    · exact packetWrites_of_foldStep hs h
  · obtain ⟨hs, -, rfl⟩ | ⟨hs, -, h⟩ | ⟨hs, -, h⟩ | ⟨hs, -, h⟩ := literalStep_cases h
    · exact .parse _ _ _ _ _ _ _ hs
    · exact packetWrites_of_groupStep hs h
    · exact packetWrites_of_returnStep hs h
    · exact packetWrites_of_fetchLiteral hs h
  · obtain ⟨-, -, rfl⟩ := illegalStep_cases (hillegal s ▸ h)
    exact packetWrites_raiseFault _ _ s

end Sys2Proof.Machine

open Sys2Proof.Machine in
/-- Settles O27: what a step may write, by phase, says what it leaves alone. -/
theorem frameOfEveryPacketType : Obligations.FrameOfEveryPacketType := by
  intro i s t h
  cases packetWrites_of_exec h with
  | fault => simp [State.bit]
  | parse _ _ _ _ _ _ _ hs => simp [State.bit, hs]
  | parseEnd _ _ _ _ _ hs => simp [State.bit, hs]
  | eval _ _ _ _ _ hs => simp [State.bit, hs]
end

section
/-! PROOF. What a fault leaves behind, and that a finished run's outcome stays until CLEAR or reset (R158, R159, R189). -/
namespace Sys2Proof.Machine

open Sys2Proof

variable {s t : State}

theorem SameView.refl (s : State) : SameView s s := ⟨rfl, rfl, rfl, rfl, rfl, rfl, rfl, fun _ => rfl⟩

/-- R31: the agenda is no register of the block. -/
theorem sameView_with_agenda (s : State) (later : List HostAccess) : SameView { s with agenda := later } s :=
  ⟨rfl, rfl, rfl, rfl, rfl, rfl, rfl, fun _ => rfl⟩

/-- R17: outside IDLE a write to CMD that is not CLEAR is dropped. -/
theorem writeCmd_of_not_idle (hs : s.status ≠ .idle) {v : Nat} (hv : v % 4 ≠ 2) : writeCmd v s = s := by
  unfold writeCmd
  split
  · exact if_neg hs
  · exact absurd ‹_› hv
  · rfl

/-- R24, R25: outside IDLE every access but CLEAR and reset is dropped. -/
theorem perform_of_not_idle (hs : s.status ≠ .idle) {a : HostAccess} (h : perform a s = .next t) :
    t = s ∨ (∃ v, a = .writeReg .cmd v ∧ v % 4 = 2) ∨ a = .reset := by
  cases a with
  | writeReg r v =>
    cases h
    cases r with
    | cmd =>
      by_cases hv : v % 4 = 2
      · exact .inr (.inl ⟨v, rfl, hv⟩)
      · exact .inl (writeCmd_of_not_idle hs hv)
    | len => exact .inl (if_neg fun hidle => hs hidle.1)
    | status | err | epos | result | consumed | flags => exact .inl rfl
  | writeBit p b =>
    cases ((writeOfACell s p b).1 hs).symm.trans h
    exact .inl rfl
  | writeByte k v =>
    cases ((writeOfAByte s k v).1 hs).symm.trans h
    exact .inl rfl
  | reset => exact .inr (.inr rfl)
  | engine =>
    cases h
    exact .inl rfl

theorem ne_of_finished {st : Status} (h : st = .done ∨ st = .fault) : st ≠ .idle ∧ st ≠ .parse ∧ st ≠ .eval := by
  rcases h with rfl | rfl <;> decide

/-- R122: once the run is over the engine does not move. -/
theorem engineStep_of_finished (hs : s.status = .done ∨ s.status = .fault) (h : engineStep s = .next t) : t = s := by
  obtain ⟨-, hparse, heval⟩ := ne_of_finished hs
  cases (engineStep_rest hparse heval).symm.trans h
  rfl

end Sys2Proof.Machine

open Sys2Proof.Machine in
/-- Settles O23, register by register: FLAGS reads 0 because STATUS is not DONE. -/
theorem faultEntry : Obligations.FaultEntry := fun k p s =>
  ⟨rfl, rfl, rfl, rfl, rfl, flagsRead_of_not_done (s := raiseFault k p s) nofun, rfl, rfl, rfl, rfl, fun _ => rfl, rfl⟩

open Sys2Proof.Machine in
/-- Settles O17: the engine rests, and outside IDLE the block drops every access but CLEAR and reset. -/
theorem outcomeIsHeldUntilClear : Obligations.OutcomeIsHeldUntilClear := by
  intro s t hs h
  unfold step at h
  split at h
  next =>
    rw [engineStep_of_finished hs h]
    exact .inl (.refl s)
  next later ha =>
    rw [engineStep_of_finished (s := { s with agenda := later }) hs h]
    exact .inl (sameView_with_agenda s later)
  next a later _ ha =>
    obtain rfl | ⟨v, rfl, hv⟩ | rfl := perform_of_not_idle (s := { s with agenda := later }) (ne_of_finished hs).1 h
    · exact .inl (sameView_with_agenda s later)
    · exact .inr (.inl ⟨v, later, ha, hv⟩)
    · exact .inr (.inr ⟨later, ha⟩)
end

section
/-! PROOF. EmptyOperator is the outcome exactly when the parse completes and the tree has an operator without children: the
evaluation raises at the first of them in stream order, whose start is the lowest (R101, R108, R156). -/
namespace Sys2Proof.Machine

open Sys2Proof

/-! The parse never raises EmptyOperator (R85 to R87). -/

theorem parseGroups_error_kind {bs : List Bool} {q u : Nat} {r : Raise} (h : parseGroups bs q u = .error r) :
    r.kind = .outOfBits := by
  fun_induction parseGroups bs q u with
  | case1 _ _ _ _ _ _ _ _ ih => exact ih h
  | case2 => cases h
  | case3 =>
    cases h
    rfl

theorem parseLiteral_error_kind {bs : List Bool} {p : Nat} {r : Raise} (h : parseLiteral bs p = .error r) :
    r.kind ≠ .emptyOperator := by
  obtain hr | ⟨v, q, -, -, rfl⟩ := groupsRaise_of_parseLiteral h
  · simp [parseGroups_error_kind hr]
  · simp

/-- R86: an operator's own fault is a cut count, and any other is a child's. -/
theorem parseOperator_error_cases {parse : Nat → Except Raise Packet} {bs : List Bool} {p k : Nat} {r : Raise}
    (hparse : ∀ p t, parse p = .ok t → Extent bs.length p t) (h : parseOperator parse bs p k = .error r) :
    r = ⟨.outOfBits, p + 3⟩ ∨ ∃ q, parse q = .error r := by
  unfold parseOperator at h
  split at h
  next =>
    cases h
    exact .inl rfl
  next =>
    simp only at h
    split at h <;> cases h
    next hr =>
      obtain ⟨q, -, -, hq⟩ := parseChildren_error hparse (by omega) hr
      exact .inr ⟨q, hq⟩

theorem parsePacket_error_kind {depth : Nat} {bs : List Bool} {p : Nat} {r : Raise}
    (h : parsePacket depth bs p = .error r) : r.kind ≠ .emptyOperator := by
  induction depth generalizing p with
  | zero =>
    cases h
    simp
  | succ depth ih =>
    rw [parsePacket] at h
    split at h
    next =>
      cases h
      simp
    next =>
      simp only at h
      split at h
      next =>
        cases h
        simp
      next =>
        split at h
        next => exact parseLiteral_error_kind h
        next =>
          obtain rfl | ⟨q, hq⟩ := parseOperator_error_cases (fun _ _ ht => parsePacket_extent ht) h
          · simp
          · exact ih hq

/-- R140, R156: EmptyOperator comes from the evaluation alone. -/
theorem verdictOf_eq_emptyOperator_iff {bs : List Bool} {p : Nat} : verdictOf bs = .failed .emptyOperator p ↔
    ∃ t, parseRun bs = .ok t ∧ evaluate t = .error ⟨.emptyOperator, p⟩ := by
  unfold verdictOf
  cases hrun : parseRun bs with
  | error r => simp [parsePacket_error_kind hrun]
  | ok t =>
    rcases hev : evaluate t with ⟨k, q⟩ | x
    · simp [hev]
    · simp [hev]

/-! The operators without children, in stream order (R35, R156). -/

theorem flatAll_eq_flatMap (ts : List Packet) : flatAll ts = ts.flatMap flat := by
  induction ts with
  | nil => rfl
  | cons t ts ih => rw [flatAll, ih, List.flatMap_cons]

@[simp] theorem emptyStarts_lit (v p z : Nat) : emptyStarts (.lit v p z) = [] := rfl

theorem emptyStarts_op (o : Op) {c : Nat} (hc : c < 2 ^ 4) (ts : List Packet) (p z : Nat) :
    emptyStarts (.op o c ts p z) = (if c = 0 then [p] else []) ++ ts.flatMap emptyStarts := by
  have hchildren : ts.flatMap emptyStarts =
      ((flatAll ts).filter fun n => decide (n.tid ≠ .lit) && decide (n.cnt = 0)).map Node.start := by
    rw [flatAll_eq_flatMap, List.filter_flatMap, List.map_flatMap]
    rfl
  simp only [hchildren, emptyStarts, flat, List.filter_cons, ofNat_four_eq_zero_iff hc]
  by_cases h0 : c = 0 <;> simp [h0]

/-! The evaluation raises at the first of them (R101, R108). -/

/-- The fault of an evaluation, if it raises one. -/
def raised {α : Type} : Except Raise α → Option Raise
  | .error r => some r
  | .ok _ => none

theorem raised_eq_some_iff {α : Type} {e : Except Raise α} {r : Raise} : raised e = some r ↔ e = .error r := by
  cases e <;> simp [raised]

/-- R156: the fault at the first of the given starts, if there is one. -/
def firstEmpty (starts : List Nat) : Option Raise := starts.head?.map (Raise.mk .emptyOperator)

theorem firstEmpty_append (ps qs : List Nat) : firstEmpty (ps ++ qs) = (firstEmpty ps).or (firstEmpty qs) := by
  rw [firstEmpty, List.head?_append, Option.map_or, firstEmpty, firstEmpty]

theorem firstEmpty_eq_some_iff {ps : List Nat} {p : Nat} :
    firstEmpty ps = some ⟨.emptyOperator, p⟩ ↔ ps.head? = some p := by
  simp [firstEmpty]

/-- R102: an operator with children raises what they raise. -/
theorem raised_evaluate_op {o : Op} {c p z : Nat} {ts : List Packet} (hc : c ≠ 0) (hlen : ts.length = c) :
    raised (evaluate (.op o c ts p z)) = raised (evaluateAll ts) := by
  rw [evaluate, if_neg hc]
  cases hev : evaluateAll ts with
  | error r => rfl
  | ok xs =>
    cases ts with
    | nil => exact absurd hlen.symm hc
    | cons t ts =>
      obtain ⟨y, ys, -, -, rfl⟩ := evaluateAll_cons_ok hev
      rfl

/-- R101: of two packets that raise, the first in stream order is heard. -/
theorem raised_evaluateAll_cons (t : Packet) (ts : List Packet) :
    raised (evaluateAll (t :: ts)) = (raised (evaluate t)).or (raised (evaluateAll ts)) := by
  rw [evaluateAll]
  cases evaluate t with
  | error r => rfl
  | ok x => cases evaluateAll ts <;> rfl

mutual
theorem raised_evaluate {t : Packet} (hwf : packetWf t = true) : raised (evaluate t) = firstEmpty (emptyStarts t) := by
  cases t with
  | lit v p z => rfl
  | op o c ts p z =>
    obtain ⟨hlen, hc, hwfs⟩ := packetWf_op hwf
    rw [emptyStarts_op o hc, firstEmpty_append]
    by_cases h0 : c = 0
    · rw [evaluate, if_pos h0, if_pos h0]
      rfl
    · rw [raised_evaluate_op h0 hlen, raised_evaluateAll hwfs, if_neg h0]
      rfl
theorem raised_evaluateAll {ts : List Packet} {p : Nat} (hwf : packetsWf p ts = true) :
    raised (evaluateAll ts) = firstEmpty (ts.flatMap emptyStarts) := by
  cases ts with
  | nil => rfl
  | cons t ts =>
    obtain ⟨hwft, hwfs⟩ := packetsWf_cons hwf
    rw [raised_evaluateAll_cons, raised_evaluate hwft, raised_evaluateAll hwfs, List.flatMap_cons, firstEmpty_append]
end

/-! The starts rise in stream order (R34, R35). -/

mutual
/-- Each packet begins at an offset of its own within the tree's extent, and pre-order is stream order. -/
theorem starts_flat_sublist {t : Packet} (hwf : packetWf t = true) :
    ((flat t).map Node.start).Sublist (List.range' t.start t.size) := by
  cases t with
  | lit v p z =>
    simp only [packetWf, Bool.and_eq_true, decide_eq_true_eq] at hwf
    obtain ⟨⟨-, hz⟩, -⟩ := hwf
    exact List.singleton_sublist.mpr (List.mem_range'_1.mpr ⟨le_rfl, by simp only [Packet.start, Packet.size]; omega⟩)
  | op o c ts p z =>
    simp only [packetWf, Bool.and_eq_true, decide_eq_true_eq] at hwf
    obtain ⟨⟨-, rfl⟩, hwfs⟩ := hwf
    rw [flat, List.map_cons, Packet.start, Packet.size, ← List.range'_append_1]
    exact (List.singleton_sublist.mpr (List.mem_range'_1.mpr ⟨le_rfl, by omega⟩)).append (starts_flatAll_sublist hwfs)
theorem starts_flatAll_sublist {ts : List Packet} {p : Nat} (hwf : packetsWf p ts = true) :
    ((flatAll ts).map Node.start).Sublist (List.range' p (ts.map Packet.size).sum) := by
  cases ts with
  | nil => exact List.Sublist.refl []
  | cons t ts =>
    simp only [packetsWf, Bool.and_eq_true, decide_eq_true_eq] at hwf
    obtain ⟨⟨rfl, hwft⟩, hwfs⟩ := hwf
    rw [flatAll, List.map_append, List.map_cons, List.sum_cons, ← List.range'_append_1]
    exact (starts_flat_sublist hwft).append (starts_flatAll_sublist hwfs)
end

theorem emptyStarts_pairwise_lt {t : Packet} (hwf : packetWf t = true) : (emptyStarts t).Pairwise (· < ·) :=
  (List.pairwise_lt_range' _).sublist ((List.filter_sublist.map Node.start).trans (starts_flat_sublist hwf))

/-- The head of a rising list is its lowest member. -/
theorem head?_eq_some_iff_of_pairwise_lt {l : List Nat} (h : l.Pairwise (· < ·)) {p : Nat} :
    l.head? = some p ↔ p ∈ l ∧ ∀ q ∈ l, p ≤ q := by
  cases l with
  | nil => simp
  | cons a l =>
    have hle : ∀ q ∈ a :: l, a ≤ q :=
      List.forall_mem_cons.mpr ⟨le_rfl, fun q hq => (List.rel_of_pairwise_cons h hq).le⟩
    rw [List.head?_cons, Option.some_inj]
    constructor
    · rintro rfl
      exact ⟨List.mem_cons_self, hle⟩
    · rintro ⟨hp, hmin⟩
      exact le_antisymm (hle p hp) (hmin a List.mem_cons_self)

end Sys2Proof.Machine

open Sys2Proof.Machine in
/-- Settles O54: the outcome is the evaluation's fault, which is at the first operator without children in stream order, and
starts rise in that order. -/
theorem emptyOperatorIsTheFirst : Obligations.EmptyOperatorIsTheFirst := by
  intro bs p
  rw [verdictOf_eq_emptyOperator_iff]
  refine exists_congr fun t => and_congr_right fun hrun => ?_
  have hwf : packetWf t = true := (parsePacket_extent hrun).wf
  rw [← raised_eq_some_iff, raised_evaluate hwf, firstEmpty_eq_some_iff,
    head?_eq_some_iff_of_pairwise_lt (emptyStarts_pairwise_lt hwf)]
end

section
/-! PROOF. The host's sequence CLEAR, load, LEN, START, one access a step, leaves the block at the start of a run on the string
loaded (R186, R188). -/
namespace Sys2Proof.Machine

open Sys2Proof

variable {s t : State}

/-- R11: the oldest entry of the agenda, where it is an access of the host, is performed. -/
theorem step_eq_perform {a : HostAccess} {later : List HostAccess} (ha : s.agenda = a :: later) (he : a ≠ .engine) :
    step s = perform a { s with agenda := later } := by
  cases a with
  | engine => exact absurd rfl he
  | writeReg | writeBit | writeByte | reset => rw [step, ha]

theorem run_trans {j k : Nat} {u : State} (h : Sys2Proof.core.run j s = .next u)
    (h' : Sys2Proof.core.run k u = .next t) : Sys2Proof.core.run (j + k) s = .next t := by
  induction j generalizing s with
  | zero =>
    cases h
    rwa [Nat.zero_add]
  | succ j ih =>
    obtain ⟨v, hv, hrun⟩ := (run_succ_eq_next_iff j).mp h
    rw [Nat.add_right_comm]
    exact (run_succ_eq_next_iff (j + k)).mpr ⟨v, hv, ih hrun⟩

/-! The load (R25, R186). -/

/-- The cells of BITS after the writes of `loadBits`. -/
def loadCells (m : List (Nat × Bool)) (p : Nat) : List Bool → List (Nat × Bool)
  | [] => m
  | b :: bs => loadCells (writeCell m p b) (p + 1) bs

theorem readCell_loadCells_of_lt (m : List (Nat × Bool)) {p q : Nat} (bs : List Bool) (h : q < p) :
    readCell (loadCells m p bs) q = readCell m q := by
  induction bs generalizing m p with
  | nil => rfl
  | cons b bs ih => rw [loadCells, ih _ (Nat.lt_succ_of_lt h), readCell_writeCell_other m b h.ne]

/-- R186: what has been loaded is what BITS holds there. -/
theorem slice_loadCells (s : State) (p : Nat) (bs : List Bool) :
    State.slice { s with bits := loadCells s.bits p bs } p bs.length = bs := by
  induction bs generalizing s p with
  | nil => rfl
  | cons b bs ih =>
    have hfirst : readCell (loadCells s.bits p (b :: bs)) p = some b := by
      rw [loadCells, readCell_loadCells_of_lt _ bs (Nat.lt_succ_self p), readCell_writeCell_same]
    rw [State.slice, List.length_cons, List.range'_succ, List.map_cons, bit_of_readCell hfirst]
    exact congrArg (b :: ·) (ih { s with bits := writeCell s.bits p b } (p + 1))

/-- R25, R42: in IDLE the writes of a string that fits are all performed, one a step. -/
theorem run_loadBits {p : Nat} {bs : List Bool} {later : List HostAccess} (hs : s.status = .idle)
    (hfit : p + bs.length ≤ Config.maxBits) (ha : s.agenda = loadBits p bs ++ later) :
    Sys2Proof.core.run bs.length s = .next { s with bits := loadCells s.bits p bs, agenda := later } := by
  induction bs generalizing s p with
  | nil =>
    subst ha
    rfl
  | cons b bs ih =>
    rw [List.length_cons] at hfit ⊢
    have hp : p < Config.maxBits := by omega
    have hwrite : step s = .next { s with bits := writeCell s.bits p b, agenda := loadBits (p + 1) bs ++ later } := by
      rw [step_eq_perform ha (by simp)]
      simp [perform, writeBit, hs, hp]
    exact (run_succ_eq_next_iff _).mpr ⟨_, hwrite, ih hs (by omega) rfl⟩

/-! The whole sequence (R188). -/

/-- The block in IDLE as the host leaves it for START: cleared, with a string loaded from offset 0 and LEN its length. -/
def readyToStart (bs : List Bool) (s : State) : State :=
  { commandClear s with bits := loadCells s.bits 0 bs, len := bs.length, agenda := [] }

theorem stream_readyToStart (bs : List Bool) (s : State) : (readyToStart bs s).stream = bs :=
  slice_loadCells { commandClear s with len := bs.length, agenda := [] } 0 bs

theorem step_clear {later : List HostAccess} (ha : s.agenda = .writeReg .cmd 2 :: later) :
    step s = .next { commandClear s with agenda := later } :=
  step_eq_perform ha (by simp)

theorem step_start {later : List HostAccess} (ha : s.agenda = .writeReg .cmd 1 :: later) :
    step s = .next (commandStart { s with agenda := later }) :=
  step_eq_perform ha (by simp)

theorem step_len {n : Nat} {later : List HostAccess} (hs : s.status = .idle) (hn : n ≤ Config.maxBits)
    (ha : s.agenda = .writeReg .len n :: later) : step s = .next { s with len := n, agenda := later } := by
  rw [step_eq_perform ha (by simp)]
  simp [perform, writeReg, writeLen, hs, hn]

/-- R188: from any state, the sequence is performed to its end, whose last access begins the run. -/
theorem run_hostSequence {bs : List Bool} (hfit : bs.length ≤ Config.maxBits) (ha : s.agenda = hostSequence bs) :
    Sys2Proof.core.run (bs.length + 3) s = .next (commandStart (readyToStart bs s)) := by
  have hload := run_loadBits (s := { commandClear s with agenda := (hostSequence bs).tail }) rfl
    (by rwa [Nat.zero_add]) rfl
  have hrest : Sys2Proof.core.run 2 { commandClear s with
      bits := loadCells s.bits 0 bs, agenda := [.writeReg .len bs.length, .writeReg .cmd 1] } =
        .next (commandStart (readyToStart bs s)) :=
    (run_succ_eq_next_iff 1).mpr ⟨_, step_len rfl hfit rfl, (run_succ_eq_next_iff 0).mpr ⟨_, step_start rfl, rfl⟩⟩
  exact (run_succ_eq_next_iff _).mpr ⟨_, step_clear ha, run_trans hload hrest⟩

end Sys2Proof.Machine

open Sys2Proof.Machine in
/-- Settles O60: the sequence ends with START on the string as the stream, and the run that it begins agrees with the functional
view and leaves the stream alone. -/
theorem hostSequenceDecodes : Obligations.HostSequenceDecodes := by
  intro s bs hfit ha
  obtain ⟨k, t, hrun, hverdict⟩ := endsWith_verdictOf (s := readyToStart bs s) rfl
  have hstart := run_hostSequence hfit ha
  have hagenda : (commandStart (readyToStart bs s)).agenda = [] := agenda_commandStart rfl
  rw [stream_readyToStart] at hverdict
  refine ⟨bs.length + 3 + k, t, run_trans hstart ((run_eq_next_iff hagenda).mpr hrun), hverdict, ?_⟩
  rw [hrun.sameInput.stream, stream_commandStart, stream_readyToStart]
end

section
/-! PROOF. What a step does with the oldest entry of the agenda (R11; the agenda is the model's own form). -/
namespace Sys2Proof.Machine

open Sys2Proof

variable {s : State}

/-- R11: an entry `engine` leaves the agenda, and the engine has the turn. -/
theorem step_eq_engineStep_of_agenda_engine {later : List HostAccess} (ha : s.agenda = .engine :: later) :
    step s = engineStep { s with agenda := later } := by
  rw [step, ha]

end Sys2Proof.Machine

open Sys2Proof.Machine in
/-- Settles O44: an entry `engine` gives the turn to the engine, every other is an access of the host. -/
theorem stepTakesTheOldestAccess : Obligations.StepTakesTheOldestAccess := by
  intro s a later ha
  by_cases he : a = .engine
  · subst he
    rw [if_pos rfl, step_eq_engineStep_of_agenda_engine ha]
  · rw [if_neg he, step_eq_perform ha he]
end
